-- ==== Sys2Proof/Word.lean ====
section
/-! DEFINITION. The machine word and the byte (R7: a Word is 16 bits; R61: the only byte a program ever sees is the low
half of a register). -/

namespace Sys2Proof

/-- One storage cell, register or instruction: 16 bits (R7, R17). Bit 15 is the most significant (R10). -/
abbrev Word := BitVec 16

/-- Half a word (R61): what OUT takes in character mode (R253), and the unit in which the model stores memory (log 2). -/
abbrev Byte := BitVec 8

end Sys2Proof
end

