-- ==== Sys2Proof/Config.lean ====
section
/-! DEFINITION. What an implementation fixes: the numeric parameters of R8 in one record; the two readings the spec keeps
open (R9), which a machine carries and every definition that depends on one takes as an argument; and the two device ids
the spec leaves open (R9, R255), which have no value here. -/

namespace Sys2Proof.Config

/-- The numeric parameters of R8. -/
structure Params where
  /-- `C0`: Word Store capacity after reset, in words. -/
  c0 : Nat
  /-- `CMAX`: capacity after the one expansion. -/
  cMax : Nat
  /-- `CACHE_LINES`: the most lines the Lookaside Cache holds. -/
  cacheLines : Nat
  /-- `PROT_MAX`: the highest address STR and STX may not write. -/
  protMax : Nat
  /-- `KEEP_WORDS`: how many words `StoreReset(true)` keeps. -/
  keepWords : Nat
  /-- `TRAP_CODE_MAX`: the highest trap code that vectors. -/
  trapCodeMax : Nat
  /-- `ADDR_TRAP_BASE`: the word that holds the base of the trap table. -/
  addrTrapBase : Nat
  /-- `ADDR_FAULT_VECTOR`: where the PC goes on a machine fault. -/
  addrFaultVector : Nat
  /-- `ADDR_TRAP_RETURN`: the word TRAP saves PC + 1 in. -/
  addrTrapReturn : Nat
  /-- `ADDR_FAULT_RETURN`: the word the fault dispatch saves PC + 1 in. -/
  addrFaultReturn : Nat
  deriving DecidableEq, Repr

/-- The values R8 gives. UNVERIFIED: the literals are unaudited (R4, D35); unsafe, log 9. -/
def params : Params where
  c0 := 2048
  cMax := 4096
  cacheLines := 16
  protMax := 27
  keepWords := 32
  trapCodeMax := 8
  addrTrapBase := 0
  addrFaultVector := 1
  addrTrapReturn := 2
  addrFaultReturn := 4

/-- The values of `LR_BIT` (R9, R104, D10). -/
inductive LRBit where
  | bit6
  | bit7
  deriving DecidableEq, Repr

/-- The instruction bit that gives the shift direction (R104). -/
def LRBit.number : LRBit → Nat
  | .bit6 => 6
  | .bit7 => 7

/-- The two open parameters of R9 that choose a reading. `Machine.State` carries them: no step and no host call changes
them, and a statement about every state holds for both values of each (log 8). -/
structure Readings where
  /-- `LDX_STX_INDEXED`: whether LDX and STX add their index register to the displacement (R141, D5). -/
  ldxStxIndexed : Bool
  /-- `LR_BIT`: which instruction bit is the shift direction (R104, D10). -/
  lrBit : LRBit
  deriving DecidableEq, Repr

/-- The defaults R9 gives the two readings. A machine starts with them unless it is given others (log 8). -/
def defaultReadings : Readings where
  ldxStxIndexed := false
  lrBit := .bit6

/-- Some device id, which no source gives (R255, D17): the seed of `devidChar`. A constant with no value in the model:
nothing can be proved of it but that it lies in 0 to 31. DESIGN CHOICE, safe, log 7. -/
opaque charSeed : Fin 32

/-- How far `devidNum` lies above `devidChar`, less one, modulo 32: any distance from 1 to 31, so that the two ids are
distinct (R255) and otherwise any pair. DESIGN CHOICE, safe, log 7. -/
opaque numSeed : Fin 31

/-- `DEVID_CHAR`: the device id that selects OUT's character mode (R9, R253, R255). -/
def devidChar : Nat := charSeed.val

/-- `DEVID_NUM`: the device id that selects OUT's numeric mode (R9, R253, R255), distinct from `devidChar`. -/
def devidNum : Nat := (charSeed.val + 1 + numSeed.val) % 32

end Sys2Proof.Config
end

