-- ==== Sys2Proof/Syntax.lean ====
section
/-! DEFINITION. The instruction set as syntax: one constructor of `Instr` for each of the 29 rows of
spec/opcode_table.json (R107). A field an instruction's format does not read (R102 to R105, R109) is no operand. -/

namespace Sys2Proof

/-- A general register, `R[0]` to `R[3]` (R21). -/
inductive GReg where
  | r0 | r1 | r2 | r3
  deriving DecidableEq, Repr

/-- An index register, `X[1]` to `X[3]`; there is no `X[0]` (R22). -/
inductive XReg where
  | x1 | x2 | x3
  deriving DecidableEq, Repr

/-- The condition JCC's register field names, in the order of R31: number 0, 1, 2, 3. -/
inductive Cond where
  | overflow | underflow | divZero | equal
  deriving DecidableEq, Repr

/-- The direction of SRC and RRC (R104). -/
inductive Direction where
  | left | right
  deriving DecidableEq, Repr

/-- An instruction. `r` is the register field, `ix` the index field (`none` is 0, "no index register", R22), `ind` the
indirect bit, and the last number the 5-bit field: displacement `addr`, immediate `imm`, trap code, device id or count,
an unsigned number 0 to 31 (R106) whose range `Instr.wf` checks. -/
inductive Instr where
  /-- 0 HLT (R145): stop. -/
  | hlt
  /-- 1 LDR (R161): load register from memory. -/
  | ldr (r : GReg) (ix : Option XReg) (ind : Bool) (addr : Nat)
  /-- 2 STR (R162): store register to memory. -/
  | str (r : GReg) (ix : Option XReg) (ind : Bool) (addr : Nat)
  /-- 3 LDA (R163): load register with address. -/
  | lda (r : GReg) (ix : Option XReg) (ind : Bool) (addr : Nat)
  /-- 4 AMR (R181): add memory to register. -/
  | amr (r : GReg) (ix : Option XReg) (ind : Bool) (addr : Nat)
  /-- 5 SMR (R182): subtract memory from register. -/
  | smr (r : GReg) (ix : Option XReg) (ind : Bool) (addr : Nat)
  /-- 6 AIR (R183): add immediate to register. -/
  | air (r : GReg) (imm : Nat)
  /-- 7 SIR (R184): subtract immediate from register. -/
  | sir (r : GReg) (imm : Nat)
  /-- 8 JZ (R201): jump if the register is zero. -/
  | jz (r : GReg) (ix : Option XReg) (ind : Bool) (addr : Nat)
  /-- 9 JNE (R202): jump if the register is not zero. -/
  | jne (r : GReg) (ix : Option XReg) (ind : Bool) (addr : Nat)
  /-- 10 JCC (R203): jump if CC is the named condition. -/
  | jcc (c : Cond) (ix : Option XReg) (ind : Bool) (addr : Nat)
  /-- 11 JMA (R204): unconditional jump. -/
  | jma (ix : Option XReg) (ind : Bool) (addr : Nat)
  /-- 12 JSR (R205): jump and save the return address in `R[3]`. -/
  | jsr (ix : Option XReg) (ind : Bool) (addr : Nat)
  /-- 13 RFS (R206): return through `R[3]` with a return code in `R[0]`. -/
  | rfs (imm : Nat)
  /-- 14 SOB (R207): subtract one and branch. -/
  | sob (r : GReg) (ix : Option XReg) (ind : Bool) (addr : Nat)
  /-- 15 JGE (R208): jump if the register is not negative. -/
  | jge (r : GReg) (ix : Option XReg) (ind : Bool) (addr : Nat)
  /-- 16 MLT (R221): multiply register by register. -/
  | mlt (rx ry : GReg)
  /-- 17 DVD (R222): divide register by register. -/
  | dvd (rx ry : GReg)
  /-- 18 TRR (R223): test register against register. -/
  | trr (rx ry : GReg)
  /-- 19 AND (R224): bitwise and. -/
  | and (rx ry : GReg)
  /-- 20 ORR (R225): bitwise or. -/
  | orr (rx ry : GReg)
  /-- 21 NOT (R226): bitwise complement. -/
  | not (rx : GReg)
  /-- 25 SRC (R241): arithmetic shift by a count. -/
  | src (r : GReg) (dir : Direction) (count : Nat)
  /-- 26 RRC (R242): rotate by a count. -/
  | rrc (r : GReg) (dir : Direction) (count : Nat)
  /-- 30 TRAP (R251): software trap. -/
  | trap (code : Nat)
  /-- 33 LDX (R164, R165): load index register; `none` names no register. -/
  | ldx (ix : Option XReg) (ind : Bool) (addr : Nat)
  /-- 34 STX (R166, R170): store index register; `none` names no register. -/
  | stx (ix : Option XReg) (ind : Bool) (addr : Nat)
  /-- 49 IN (R252): input a word from the keyboard queue. -/
  | input (r : GReg)
  /-- 50 OUT (R253): output a register to the printer. -/
  | output (r : GReg) (dev : Nat)
  deriving DecidableEq, Repr

end Sys2Proof
end

