-- ==== Sys2Proof/WellFormed.lean ====
section
/-! DEFINITION. Which instruction terms an instruction word can hold: the number in the 5-bit field is 0 to 31 (R101,
R106). Every other operand is well formed by its type. -/

namespace Sys2Proof

/-- The number fits the 5-bit field `IR[4:0]` (R101). -/
def fits5 (n : Nat) : Bool := decide (n < 32)

/-- The instruction is one an instruction word can hold: its 5-bit field is in range. -/
def Instr.wf : Instr → Bool
  | .hlt => true
  | .ldr _ _ _ addr => fits5 addr
  | .str _ _ _ addr => fits5 addr
  | .lda _ _ _ addr => fits5 addr
  | .amr _ _ _ addr => fits5 addr
  | .smr _ _ _ addr => fits5 addr
  | .air _ imm => fits5 imm
  | .sir _ imm => fits5 imm
  | .jz _ _ _ addr => fits5 addr
  | .jne _ _ _ addr => fits5 addr
  | .jcc _ _ _ addr => fits5 addr
  | .jma _ _ addr => fits5 addr
  | .jsr _ _ addr => fits5 addr
  | .rfs imm => fits5 imm
  | .sob _ _ _ addr => fits5 addr
  | .jge _ _ _ addr => fits5 addr
  | .mlt _ _ => true
  | .dvd _ _ => true
  | .trr _ _ => true
  | .and _ _ => true
  | .orr _ _ => true
  | .not _ => true
  | .src _ _ count => fits5 count
  | .rrc _ _ count => fits5 count
  | .trap code => fits5 code
  | .ldx _ _ addr => fits5 addr
  | .stx _ _ addr => fits5 addr
  | .input _ => true
  | .output _ dev => fits5 dev

end Sys2Proof
end

