-- ==== Sys2Proof/Decode.lean ====
section
/-! DEFINITION. Decoding an instruction word (R101, R107, R108) and, after it, encoding an instruction (R114). Both are
total. A word whose opcode is not in the table is rejected by name; what the engine then does is R254's. `LR_BIT`, on
which SRC and RRC depend (R9, R104), is an argument. -/

namespace Sys2Proof

/-- Why a word is no instruction: its opcode, bits 15 to 10, is one of the 35 illegal values (R108). -/
inductive DecodeError where
  | illegalOpcode (op : BitVec 6)
  deriving DecidableEq, Repr

/-- The opcode, `IR[15:10]` (R101). -/
def opField (w : Word) : BitVec 6 := w.extractLsb' 10 6
/-- The register field, `IR[9:8]` (R101). -/
def rField (w : Word) : BitVec 2 := w.extractLsb' 8 2
/-- The index field, `IR[7:6]` (R101). -/
def ixField (w : Word) : BitVec 2 := w.extractLsb' 6 2
/-- The indirect bit, `IR[5]` (R101). -/
def indField (w : Word) : Bool := w.getLsbD 5
/-- The displacement field, `IR[4:0]`, always an unsigned number 0 to 31 (R101, R106). -/
def addrField (w : Word) : Nat := (w.extractLsb' 0 5).toNat
/-- The direction bit of SRC and RRC, 1 = left (R104): `IR[LR_BIT]`. -/
def dirField (lr : Config.LRBit) (w : Word) : Direction := if w.getLsbD lr.number then .left else .right

/-- The general register a 2-bit field names (R21). -/
def GReg.ofField (b : BitVec 2) : GReg :=
  if b = 0 then .r0 else if b = 1 then .r1 else if b = 2 then .r2 else .r3

/-- The index register a 2-bit field names; 0 names none (R22). -/
def XReg.ofField (b : BitVec 2) : Option XReg :=
  if b = 0 then none else if b = 1 then some .x1 else if b = 2 then some .x2 else some .x3

/-- The condition a 2-bit field names (R31, R203). -/
def Cond.ofField (b : BitVec 2) : Cond :=
  if b = 0 then .overflow else if b = 1 then .underflow else if b = 2 then .divZero else .equal

/-- The instruction a word is (R107), or the rejection of its opcode (R108). Bits the format does not read are ignored
(R109); every word with opcode 0 is a HLT (R110). -/
def decode (lr : Config.LRBit) (w : Word) : Except DecodeError Instr :=
  match (opField w).toNat with
  | 0 => .ok .hlt
  | 1 => .ok (.ldr (GReg.ofField (rField w)) (XReg.ofField (ixField w)) (indField w) (addrField w))
  | 2 => .ok (.str (GReg.ofField (rField w)) (XReg.ofField (ixField w)) (indField w) (addrField w))
  | 3 => .ok (.lda (GReg.ofField (rField w)) (XReg.ofField (ixField w)) (indField w) (addrField w))
  | 4 => .ok (.amr (GReg.ofField (rField w)) (XReg.ofField (ixField w)) (indField w) (addrField w))
  | 5 => .ok (.smr (GReg.ofField (rField w)) (XReg.ofField (ixField w)) (indField w) (addrField w))
  | 6 => .ok (.air (GReg.ofField (rField w)) (addrField w))
  | 7 => .ok (.sir (GReg.ofField (rField w)) (addrField w))
  | 8 => .ok (.jz (GReg.ofField (rField w)) (XReg.ofField (ixField w)) (indField w) (addrField w))
  | 9 => .ok (.jne (GReg.ofField (rField w)) (XReg.ofField (ixField w)) (indField w) (addrField w))
  | 10 => .ok (.jcc (Cond.ofField (rField w)) (XReg.ofField (ixField w)) (indField w) (addrField w))
  | 11 => .ok (.jma (XReg.ofField (ixField w)) (indField w) (addrField w))
  | 12 => .ok (.jsr (XReg.ofField (ixField w)) (indField w) (addrField w))
  | 13 => .ok (.rfs (addrField w))
  | 14 => .ok (.sob (GReg.ofField (rField w)) (XReg.ofField (ixField w)) (indField w) (addrField w))
  | 15 => .ok (.jge (GReg.ofField (rField w)) (XReg.ofField (ixField w)) (indField w) (addrField w))
  | 16 => .ok (.mlt (GReg.ofField (rField w)) (GReg.ofField (ixField w)))
  | 17 => .ok (.dvd (GReg.ofField (rField w)) (GReg.ofField (ixField w)))
  | 18 => .ok (.trr (GReg.ofField (rField w)) (GReg.ofField (ixField w)))
  | 19 => .ok (.and (GReg.ofField (rField w)) (GReg.ofField (ixField w)))
  | 20 => .ok (.orr (GReg.ofField (rField w)) (GReg.ofField (ixField w)))
  | 21 => .ok (.not (GReg.ofField (rField w)))
  | 25 => .ok (.src (GReg.ofField (rField w)) (dirField lr w) (addrField w))
  | 26 => .ok (.rrc (GReg.ofField (rField w)) (dirField lr w) (addrField w))
  | 30 => .ok (.trap (addrField w))
  | 33 => .ok (.ldx (XReg.ofField (ixField w)) (indField w) (addrField w))
  | 34 => .ok (.stx (XReg.ofField (ixField w)) (indField w) (addrField w))
  | 49 => .ok (.input (GReg.ofField (rField w)))
  | 50 => .ok (.output (GReg.ofField (rField w)) (addrField w))
  | _ => .error (.illegalOpcode (opField w))

/-- The instruction of a row of spec/opcode_table.json: every instruction is one 16-bit word (R100), so the word is the
low `nbits` bits of `w` with zeros above, and there is no byte order to choose (R61). `LR_BIT` has its default, as the
table's own rows do. -/
def decodeTableWord (nbits w : Nat) : Option Instr :=
  match decode Config.defaultReadings.lrBit (BitVec.ofNat 16 (w % 2 ^ nbits)) with
  | .ok i => some i
  | .error _ => none

/-- The number of a general register (R21). -/
def GReg.number : GReg → Nat
  | .r0 => 0
  | .r1 => 1
  | .r2 => 2
  | .r3 => 3

/-- The number in the index field: 0 for no index register (R22). -/
def XReg.number : Option XReg → Nat
  | none => 0
  | some .x1 => 1
  | some .x2 => 2
  | some .x3 => 3

/-- The condition number (R31). -/
def Cond.number : Cond → Nat
  | .overflow => 0
  | .underflow => 1
  | .divZero => 2
  | .equal => 3

/-- The indirect bit as a number. -/
def indNumber (ind : Bool) : Nat := if ind then 1 else 0

/-- The index field that holds a direction bit at `LR_BIT` and 0 in its other bit (R104, R112). -/
def Direction.number (lr : Config.LRBit) : Direction → Nat
  | .left => 2 ^ (lr.number - 6)
  | .right => 0

/-- The encoding function of R114: `op·1024 + r·256 + ix·64 + i·32 + addr`. -/
def encWord (op r ix i addr : Nat) : Word :=
  BitVec.ofNat 16 (op * 1024 + r * 256 + ix * 64 + i * 32 + addr)

/-- The opcode number of an instruction (R107). -/
def Instr.opcode : Instr → Nat
  | .hlt => 0
  | .ldr .. => 1
  | .str .. => 2
  | .lda .. => 3
  | .amr .. => 4
  | .smr .. => 5
  | .air .. => 6
  | .sir .. => 7
  | .jz .. => 8
  | .jne .. => 9
  | .jcc .. => 10
  | .jma .. => 11
  | .jsr .. => 12
  | .rfs .. => 13
  | .sob .. => 14
  | .jge .. => 15
  | .mlt .. => 16
  | .dvd .. => 17
  | .trr .. => 18
  | .and .. => 19
  | .orr .. => 20
  | .not .. => 21
  | .src .. => 25
  | .rrc .. => 26
  | .trap .. => 30
  | .ldx .. => 33
  | .stx .. => 34
  | .input .. => 49
  | .output .. => 50

/-- The word of an instruction, written from the encodings of R102 to R105 with ignored fields 0 (R109, R112). The
numbers are the opcodes of R107. -/
def encode (lr : Config.LRBit) : Instr → Word
  | .hlt => encWord 0 0 0 0 0
  | .ldr r ix ind addr => encWord 1 r.number (XReg.number ix) (indNumber ind) addr
  | .str r ix ind addr => encWord 2 r.number (XReg.number ix) (indNumber ind) addr
  | .lda r ix ind addr => encWord 3 r.number (XReg.number ix) (indNumber ind) addr
  | .amr r ix ind addr => encWord 4 r.number (XReg.number ix) (indNumber ind) addr
  | .smr r ix ind addr => encWord 5 r.number (XReg.number ix) (indNumber ind) addr
  | .air r imm => encWord 6 r.number 0 0 imm
  | .sir r imm => encWord 7 r.number 0 0 imm
  | .jz r ix ind addr => encWord 8 r.number (XReg.number ix) (indNumber ind) addr
  | .jne r ix ind addr => encWord 9 r.number (XReg.number ix) (indNumber ind) addr
  | .jcc c ix ind addr => encWord 10 c.number (XReg.number ix) (indNumber ind) addr
  | .jma ix ind addr => encWord 11 0 (XReg.number ix) (indNumber ind) addr
  | .jsr ix ind addr => encWord 12 0 (XReg.number ix) (indNumber ind) addr
  | .rfs imm => encWord 13 0 0 0 imm
  | .sob r ix ind addr => encWord 14 r.number (XReg.number ix) (indNumber ind) addr
  | .jge r ix ind addr => encWord 15 r.number (XReg.number ix) (indNumber ind) addr
  | .mlt rx ry => encWord 16 rx.number ry.number 0 0
  | .dvd rx ry => encWord 17 rx.number ry.number 0 0
  | .trr rx ry => encWord 18 rx.number ry.number 0 0
  | .and rx ry => encWord 19 rx.number ry.number 0 0
  | .orr rx ry => encWord 20 rx.number ry.number 0 0
  | .not rx => encWord 21 rx.number 0 0 0
  | .src r dir count => encWord 25 r.number (dir.number lr) 0 count
  | .rrc r dir count => encWord 26 r.number (dir.number lr) 0 count
  | .trap code => encWord 30 0 0 0 code
  | .ldx ix ind addr => encWord 33 0 (XReg.number ix) (indNumber ind) addr
  | .stx ix ind addr => encWord 34 0 (XReg.number ix) (indNumber ind) addr
  | .input r => encWord 49 r.number 0 0 0
  | .output r dev => encWord 50 r.number 0 0 dev

/-- The bits of an instruction's word that its format reads (R102 to R105, R107): 1 where the bit matters, 0 where any
value behaves the same (R109). -/
def Instr.readBits (lr : Config.LRBit) : Instr → Word
  | .hlt => 0xFC00
  | .ldr .. => 0xFFFF
  | .str .. => 0xFFFF
  | .lda .. => 0xFFFF
  | .amr .. => 0xFFFF
  | .smr .. => 0xFFFF
  | .air .. => 0xFF1F
  | .sir .. => 0xFF1F
  | .jz .. => 0xFFFF
  | .jne .. => 0xFFFF
  | .jcc .. => 0xFFFF
  | .jma .. => 0xFCFF
  | .jsr .. => 0xFCFF
  | .rfs .. => 0xFC1F
  | .sob .. => 0xFFFF
  | .jge .. => 0xFFFF
  | .mlt .. => 0xFFC0
  | .dvd .. => 0xFFC0
  | .trr .. => 0xFFC0
  | .and .. => 0xFFC0
  | .orr .. => 0xFFC0
  | .not .. => 0xFF00
  | .src .. => 0xFF1F ||| (1#16 <<< lr.number)
  | .rrc .. => 0xFF1F ||| (1#16 <<< lr.number)
  | .trap .. => 0xFC1F
  | .ldx .. => 0xFCFF
  | .stx .. => 0xFCFF
  | .input .. => 0xFF00
  | .output .. => 0xFF1F

end Sys2Proof
end

