-- ==== Sys2Proof/Machine/Numbers.lean ====
section
/-! DEFINITION. The number notation of R11 and R15: signed and unsigned readings of a Word, truncation, one-hot values. -/

namespace Sys2Proof.Machine

/-- The unsigned reading of a Word, 0 to 65535 (R11). -/
def u16 (w : Word) : Nat := w.toNat

/-- The signed two's-complement reading of a Word, -32768 to 32767 (R11). -/
def s16 (w : Word) : Int := w.toInt

/-- The Word congruent to an integer modulo 65536 (R11). -/
def trunc16 (n : Int) : Word := BitVec.ofInt 16 n

/-- `one_hot(k) = 2^k` in a 4-bit register (R15, R31, R35). -/
def oneHot (k : Nat) : BitVec 4 := BitVec.ofNat 4 (2 ^ k)

/-- The low byte `w[7:0]` of a Word (R61, R253). -/
def lowByte (w : Word) : Byte := w.extractLsb' 0 8

/-- The high byte `w[15:8]` of a Word. -/
def highByte (w : Word) : Byte := w.extractLsb' 8 8

/-- The Word made of a high and a low byte. -/
def joinBytes (hi lo : Byte) : Word := hi ++ lo

end Sys2Proof.Machine
end

