-- ==== Sys2Proof/Machine/State.lean ====
section
/-! DEFINITION. The state of the machine, as plain data: every piece of state 10_state.md gives it (R20 to R42), and its
value after reset (R46, R310). -/

namespace Sys2Proof.Machine

/-- Why the model stops: there is no constructor, because the spec gives every step an effect. A machine fault is a
dispatched transition (R272, R131), an out-of-range access is a stall with a next state (R278). -/
inductive Fault : Type
  deriving DecidableEq, Repr

/-- Why the model declines to give an instruction a meaning. -/
inductive Refusal where
  /-- Raised by an arm of `exec` whose instruction has no meaning yet. No arm raises it now. Safe: the model stops. -/
  | notModelled (mnemonic : String)
  deriving DecidableEq, Repr

/-- The engine state (R37). -/
inductive EngineState where
  | ready | awaitingInput | halted
  deriving DecidableEq, Repr

/-- The keyboard wait flag `WAIT` (R39). -/
inductive WaitFlag where
  | idle | hasInput | blockedWaiting
  deriving DecidableEq, Repr

/-- The outcome of a step (R14, R131). -/
inductive StepOutcome where
  /-- The instruction completed, or a machine fault was dispatched. -/
  | next
  /-- The instruction was HLT. -/
  | halt
  /-- The instruction was IN and the input queue was empty. -/
  | await
  /-- An access was out of range, or STX named index register 0: the step ended where it was. -/
  | stall
  deriving DecidableEq, Repr

/-- An output event (R40, R256): a character code 0 to 255, or the signed integer whose numeral is printed (DEDUCED: log 21). -/
inductive OutEvent where
  | outChar (b : Byte)
  | outNum (n : Int)
  deriving DecidableEq, Repr

/-- One Cache Line, an (address, word) pair (R18, R42). -/
structure CacheLine where
  addr : Nat
  word : Word
  deriving DecidableEq, Repr

/-- The general registers (R21). -/
structure GRegs where
  r0 : Word
  r1 : Word
  r2 : Word
  r3 : Word
  deriving DecidableEq, Repr

/-- The index registers (R22). -/
structure XRegs where
  x1 : Word
  x2 : Word
  x3 : Word
  deriving DecidableEq, Repr

/-- The contents of the Word Store: (key, byte) pairs in the canonical form of `Memory.wf`. Word `a` is the two bytes
with keys `2a` (low half) and `2a + 1` (high half); no instruction and no host operation sees a byte of memory (R61), so
the order of the two is the model's own. DESIGN CHOICE, safe, log 2. -/
abbrev Memory := List Host.Cell

/-- The Lookaside Cache: its lines, newest insertion first (R42, R68). -/
abbrev Cache := List CacheLine

/-- Everything the spec says the machine holds. -/
structure State where
  /-- `R[0]` to `R[3]` (R21). -/
  r : GRegs
  /-- `X[1]` to `X[3]` (R22). -/
  x : XRegs
  /-- `PC`, a full Word, never masked (R23). -/
  pc : Word
  /-- `IR`, the word being executed (R24). -/
  ir : Word
  /-- `CC`, four bits (R30, R31). -/
  cc : BitVec 4
  /-- `MAR`, the address of the last access (R25). -/
  mar : Word
  /-- `MBR`, the word of the last access (R26). -/
  mbr : Word
  /-- `MFR`, the last fault kind, one-hot (R34, R35). -/
  mfr : BitVec 4
  /-- The engine state (R37). -/
  engine : EngineState
  /-- `INQ`, the Keyboard Input Queue, front first (R38). -/
  inq : List Word
  /-- `WAIT`, the keyboard wait flag (R39). -/
  wait : WaitFlag
  /-- `OUTS`, the output stream, oldest first (R40). -/
  outs : List OutEvent
  /-- `M`, the Word Store (R41). -/
  mem : Memory
  /-- `EXPANDED` (R41). -/
  expanded : Bool
  /-- `CACHE`, the Lookaside Cache (R42). -/
  cache : Cache
  /-- The outcome of the last step, which R131 asks a model's step to return with the new state. The model's own field:
  no rule reads it and the host cannot write it. DESIGN CHOICE, log 5. -/
  outcome : StepOutcome
  /-- `LDX_STX_INDEXED` and `LR_BIT` (R9): parameters of the machine, not spec state. They stand here so that `exec` and
  `step` take them as an argument; nothing changes them. The model's own field. DESIGN CHOICE, log 8. -/
  readings : Config.Readings
  deriving DecidableEq, Repr

/-- `CAP`, the current capacity in words: the other view of `EXPANDED` (R41; log 4). -/
def State.cap (s : State) : Nat := if s.expanded then Config.params.cMax else Config.params.c0

/-- The state `PowerOn` leaves (R46, R310). The zero registers, the empty queues and the empty cache are the spec's
decisions D19 and D24 (log 6); `outcome` and `readings` are the model's own (DESIGN CHOICE, log 5 and log 8). -/
def State.reset : State where
  r := ⟨0, 0, 0, 0⟩
  x := ⟨0, 0, 0⟩
  pc := 0
  ir := 0
  cc := 0
  mar := 0
  mbr := 0
  mfr := 0
  engine := .ready
  inq := []
  wait := .idle
  outs := []
  mem := []
  expanded := false
  cache := []
  outcome := .next
  readings := Config.defaultReadings

end Sys2Proof.Machine
end

