-- ==== Sys2Proof/Machine/Memory.lean ====
section
/-! DEFINITION. The Word Store (20_memory.md R63 to R67): a canonical list of (key, byte) pairs read and written a word at
a time. An unlisted byte reads 0, the reset contents the spec gives (R46, R67; log 3). -/

namespace Sys2Proof.Machine

/-- What a byte no entry lists reads as: 0 (R46, R66, R67: every word starts 0). -/
def unlistedByte : Byte := 0

/-- The keys are strictly rising from `lo` on and no entry holds `unlistedByte`. -/
def Memory.wfFrom (lo : Nat) : Memory → Bool
  | [] => true
  | (k, b) :: m => decide (lo ≤ k) && (b != unlistedByte) && Memory.wfFrom (k + 1) m

/-- The canonical form of the store: strictly rising keys, no entry equal to what an unlisted byte reads as. Equal
memories are then equal lists. -/
def Memory.wf (m : Memory) : Bool := Memory.wfFrom 0 m

/-- Every entry belongs to one of the first `words` words. -/
def Memory.below (words : Nat) (m : Memory) : Bool := m.all fun c => decide (c.1 < 2 * words)

/-- The byte at a key. -/
def Memory.readByte : Memory → Nat → Byte
  | [], _ => unlistedByte
  | (k, b) :: m, a => if k = a then b else Memory.readByte m a

/-- The store without its entry at a key. -/
def Memory.eraseByte (m : Memory) (a : Nat) : Memory := m.filter fun c => c.1 ≠ a

/-- The store with an entry put before the first larger key. -/
def Memory.insertByte : Memory → Nat → Byte → Memory
  | [], a, v => [(a, v)]
  | (k, b) :: m, a, v => if a < k then (a, v) :: (k, b) :: m else (k, b) :: Memory.insertByte m a v

/-- The store with the byte at a key changed; writing `unlistedByte` removes the entry. -/
def Memory.writeByte (m : Memory) (a : Nat) (v : Byte) : Memory :=
  if v = unlistedByte then m.eraseByte a else (m.eraseByte a).insertByte a v

/-- `M[a]` (R13): the word at a word address. -/
def Memory.readWord (m : Memory) (a : Nat) : Word := joinBytes (m.readByte (2 * a + 1)) (m.readByte (2 * a))

/-- `M[a] <- v` (R13). -/
def Memory.writeWord (m : Memory) (a : Nat) (v : Word) : Memory :=
  (m.writeByte (2 * a) (lowByte v)).writeByte (2 * a + 1) (highByte v)

/-- The store with every word from `words` on set to 0 (R66, R67). -/
def Memory.keepBelow (m : Memory) (words : Nat) : Memory := m.filter fun c => c.1 < 2 * words

/-- `StoreRead(a)` (R64): the word at `a`, or `none` for OutOfRange. -/
def storeRead (s : State) (a : Nat) : Option Word := if a < s.cap then some (s.mem.readWord a) else none

/-- `StoreWrite(a, v)` (R65): the store after the write, or `none` for OutOfRange. It enforces no write protection. -/
def storeWrite (s : State) (a : Nat) (v : Word) : Option Memory :=
  if a < s.cap then some (s.mem.writeWord a v) else none

end Sys2Proof.Machine
end

