-- ==== Sys2Proof/Machine/Cache.lean ====
section
/-! DEFINITION. The Lookaside Cache (20_memory.md R68 to R74): fully associative, at most 16 lines, eviction in order of
insertion only, write-through, write-allocate. Cache states no run reaches follow the rules' text (DEDUCED, log 18). -/

namespace Sys2Proof.Machine

/-- The word of the line the cache holds for an address, if it holds one. -/
def Cache.lookup : Cache → Nat → Option Word
  | [], _ => none
  | l :: c, a => if l.addr = a then some l.word else Cache.lookup c a

/-- `Insert(a, w)` (R69): a new line at the head; a full cache first loses its last line, the oldest inserted. -/
def Cache.insert (c : Cache) (a : Nat) (w : Word) : Cache :=
  ⟨a, w⟩ :: (if Config.params.cacheLines ≤ c.length then c.dropLast else c)

/-- The word of the line for `a` replaced, the line kept where it is (R72, R73). -/
def Cache.update (c : Cache) (a : Nat) (w : Word) : Cache :=
  c.map fun l => if l.addr = a then { l with word := w } else l

/-- The cache after a read of `a` that found the word `w` in the store: unchanged on a hit, inserted on a miss (R70,
R71). -/
def Cache.afterRead (c : Cache) (a : Nat) (w : Word) : Cache :=
  match c.lookup a with
  | some _ => c
  | none => c.insert a w

/-- The cache after a write of `v` to `a`: updated in place on a hit, inserted on a miss (R72, R73). -/
def Cache.afterWrite (c : Cache) (a : Nat) (v : Word) : Cache :=
  match c.lookup a with
  | some _ => c.update a v
  | none => c.insert a v

/-- `CachedRead(a)` (R70): the word and the state after, or `none` for OutOfRange. A hit does not touch the store. -/
def cachedRead (s : State) (a : Nat) : Option (Word × State) :=
  match s.cache.lookup a with
  | some w => some (w, s)
  | none =>
    match storeRead s a with
    | some w => some (w, { s with cache := s.cache.insert a w })
    | none => none

/-- `CachedWrite(a, v)` (R72): the state after, or `none` for OutOfRange, which is detected before the cache changes. -/
def cachedWrite (s : State) (a : Nat) (v : Word) : Option State :=
  match storeWrite s a v with
  | some m => some { s with mem := m, cache := s.cache.afterWrite a v }
  | none => none

end Sys2Proof.Machine
end

