-- ==== Sys2Proof/Machine/Ops.lean ====
section
/-! DEFINITION. The named operations every meaning is written over: register reads and writes, the engine's access
primitives `MemRead` and `MemWrite` (R75, R76), the ends of a step (R131, R138), the stall (R278), the dispatch of a
machine fault (R272) and the save of a trap's return address (R251, R282). -/

namespace Sys2Proof.Machine

/-- What a meaning answers. -/
abbrev Result := Host.Outcome State Fault Refusal

/-- `R[i]` of a register file (R12, R21). -/
def GRegs.get (g : GRegs) : GReg → Word
  | .r0 => g.r0
  | .r1 => g.r1
  | .r2 => g.r2
  | .r3 => g.r3

/-- `R[i] <- v` (R12, R21). -/
def GRegs.set (g : GRegs) (i : GReg) (v : Word) : GRegs :=
  match i with
  | .r0 => { g with r0 := v }
  | .r1 => { g with r1 := v }
  | .r2 => { g with r2 := v }
  | .r3 => { g with r3 := v }

/-- `X[j]` of the index registers (R12, R22). -/
def XRegs.get (x : XRegs) : XReg → Word
  | .x1 => x.x1
  | .x2 => x.x2
  | .x3 => x.x3

/-- `X[j] <- v` (R12, R22). -/
def XRegs.set (x : XRegs) (j : XReg) (v : Word) : XRegs :=
  match j with
  | .x1 => { x with x1 := v }
  | .x2 => { x with x2 := v }
  | .x3 => { x with x3 := v }

/-- The register `R[r + 1]` that MLT and DVD also write; `R[4]` does not exist (R221, R222, R227). -/
def pairRegister : GReg → Option GReg
  | .r0 => some .r1
  | .r1 => some .r2
  | .r2 => some .r3
  | .r3 => none

/-- The second result of MLT and DVD: written to `R[r + 1]`, discarded when there is none (R227). -/
def GRegs.setNext (g : GRegs) (i : GReg) (v : Word) : GRegs :=
  match pairRegister i with
  | some j => g.set j v
  | none => g

/-- `X[ix] <- w` for an index field, where 0 names no register and the word is discarded (R164, R165). -/
def XRegs.setField (x : XRegs) (ix : Option XReg) (w : Word) : XRegs :=
  match ix with
  | some j => x.set j w
  | none => x

/-- The state with `R[i] <- v`. -/
def setR (i : GReg) (v : Word) (s : State) : State := { s with r := s.r.set i v }

/-- The state with the pair of results of MLT and DVD written: the first to `R[i]`, the second to `R[i + 1]` if that
register exists (R221, R222, R227). -/
def setPair (i : GReg) (first second : Word) (s : State) : State :=
  { s with r := (s.r.set i first).setNext i second }

/-- The state with the whole of CC written (R30). -/
def setCC (c : BitVec 4) (s : State) : State := { s with cc := c }

/-- `PC <- trunc16(PC + 1)` (R23, R135). -/
def advance (s : State) : State := { s with pc := s.pc + 1 }

/-- `PC <- trunc16(target)`, a control transfer (R12, R143, R200). -/
def jumpTo (target : Nat) (s : State) : State := { s with pc := BitVec.ofNat 16 target }

/-- The end of a completed instruction: outcome `Next`, engine state Ready (R131, R138). -/
def complete (s : State) : Result := .next { s with engine := .ready, outcome := .next }

/-- `stall`: the step ends with the effects already made; outcome `Stall`, engine state Ready, PC unchanged (R14, R131,
R278; log 11). -/
def stall (s : State) : Result := .next { s with engine := .ready, outcome := .stall }

/-- `halt`: the step ends with engine state Halted (R14, R131, R145). -/
def halt (s : State) : Result := .next { s with engine := .halted, outcome := .halt }

/-- `await`: the step ends with engine state AwaitingInput and `WAIT` blocked-waiting (R14, R131, R252). -/
def await (s : State) : Result :=
  .next { s with engine := .awaitingInput, wait := .blockedWaiting, outcome := .await }

/-- What an access primitive answers (R13): the value with the state after, or the state a stalled access leaves. -/
inductive Access (α : Type) where
  | ok (value : α) (s : State)
  | stalled (s : State)
  deriving DecidableEq, Repr

/-- Goes on after an access that succeeded; a stalled access ends the instruction (R160, R278). -/
def Access.andThen {α : Type} (x : Access α) (k : α → State → Result) : Result :=
  match x with
  | .ok v s => k v s
  | .stalled s => stall s

/-- `MemRead(a, 1)` (R75): MAR is written before the attempt, MBR only by a read that succeeds (R25, R26). -/
def memRead (a : Nat) (s : State) : Access Word :=
  let s1 : State := { s with mar := BitVec.ofNat 16 a }
  match cachedRead s1 a with
  | some (w, s2) => .ok w { s2 with mbr := w }
  | none => .stalled s1

/-- `MemWrite(a, 1, v)` (R76): MAR and MBR are written before the attempt (R25, R26). -/
def memWrite (a : Nat) (v : Word) (s : State) : Access Unit :=
  let s1 : State := { s with mar := BitVec.ofNat 16 a, mbr := v }
  match cachedWrite s1 a v with
  | some s2 => .ok () s2
  | none => .stalled s1

/-- The kinds of machine fault (R35, R271). -/
inductive FaultKind where
  /-- Kind 0: STR or STX to an address up to 27 (R273). -/
  | protectedWrite
  /-- Kind 1: TRAP with a code above 8 (R274). -/
  | invalidTrapCode
  /-- Kind 2: an opcode that is not in the table (R275). -/
  | illegalOpcode
  /-- Kind 3: listed by the source and never raised by the core (R276). -/
  | memoryOutOfRange
  deriving DecidableEq, Repr

/-- The kind's number (R35). -/
def FaultKind.number : FaultKind → Nat
  | .protectedWrite => 0
  | .invalidTrapCode => 1
  | .illegalOpcode => 2
  | .memoryOutOfRange => 3

/-- `raise Fault(kind)`, the dispatch of a machine fault (R272): PC + 1 is saved in word 4 through the cached write path,
the PC goes to address 1, MFR records the kind one-hot. The instruction ends here and the outcome is `Next`. -/
def raiseFault (kind : FaultKind) (s : State) : Result :=
  (memWrite Config.params.addrFaultReturn (s.pc + 1) s).andThen fun _ s1 =>
    complete { s1 with pc := BitVec.ofNat 16 Config.params.addrFaultVector, mfr := oneHot kind.number }

/-- The part of TRAP common to every code (R251 steps 1 and 2): PC + 1 is saved in word 2 through the cached write path,
which the write protection does not stop (R80), and PC becomes 0. -/
def saveTrapReturn (s : State) : Access Unit :=
  match memWrite Config.params.addrTrapReturn (s.pc + 1) s with
  | .ok _ s1 => .ok () { s1 with pc := 0 }
  | .stalled s1 => .stalled s1

/-- Vectoring of a valid TRAP (R251 step 4): the PC goes to `M[0] + code`, the address of the table entry itself. -/
def vectorTrap (code : Nat) (s : State) : Result :=
  (memRead Config.params.addrTrapBase s).andThen fun b s1 => complete (jumpTo (u16 b + code) s1)

/-- Stage 1 of a step, the fetch (R132): the word at PC through the cache, into IR. A fetch that stalls changes MAR
only. -/
def fetch (s : State) : Access Word :=
  match memRead (u16 s.pc) s with
  | .ok w s1 => .ok w { s1 with ir := w }
  | .stalled s1 => .stalled s1

end Sys2Proof.Machine
end

