-- ==== Sys2Proof/Machine/Operands.lean ====
section
/-! DEFINITION. The operand forms: the effective-address resolver (R139 to R143) and the arithmetic the register
instructions compute on their operands (R180, R221, R222, R241, R242). -/

namespace Sys2Proof.Machine

/-- `EA0`, the address before indirection (R140 step 1): the displacement, plus the unsigned index register if one is
selected. It is not truncated (R143). -/
def baseAddress (ix : Option XReg) (addr : Nat) (s : State) : Nat :=
  match ix with
  | some j => u16 (s.x.get j) + addr
  | none => addr

/-- The effective-address resolver (R140): one level of indirection when the indirect bit is set (R142). It stalls if the
indirect fetch is out of range. -/
def resolveEA (ix : Option XReg) (ind : Bool) (addr : Nat) (s : State) : Access Nat :=
  if ind then
    match memRead (baseAddress ix addr s) s with
    | .ok w s1 => .ok (u16 w) s1
    | .stalled s1 => .stalled s1
  else .ok (baseAddress ix addr s) s

/-- The index field LDX and STX give the resolver: by default none, because the field names the register moved (D5); with
`LDX_STX_INDEXED` the field itself, as in every other instruction (R141; log 8). -/
def movedIndex (ix : Option XReg) (s : State) : Option XReg := if s.readings.ldxStxIndexed then ix else none

/-- An STR or STX to this address is a protected write (R80): the unsigned comparison `EA ≤ 27`. -/
def isProtected (ea : Nat) : Bool := decide (ea ≤ Config.params.protMax)

/-- The exact sum of AMR (R180, R181). -/
def exactSum (a b : Word) : Int := s16 a + s16 b

/-- The exact difference of SMR (R180, R182). -/
def exactDiff (a b : Word) : Int := s16 a - s16 b

/-- The exact sum of AIR, whose immediate is not negative (R183). -/
def exactSumImm (a : Word) (imm : Nat) : Int := s16 a + imm

/-- The exact difference of SIR (R184). -/
def exactDiffImm (a : Word) (imm : Nat) : Int := s16 a - imm

/-- The 32-bit pattern of the exact signed product (R221 steps 1 and 2). -/
def product32 (a b : Word) : BitVec 32 := BitVec.ofInt 32 (s16 a * s16 b)

/-- The high half `P[31:16]` (R221 step 3). -/
def highHalf (p : BitVec 32) : Word := p.extractLsb' 16 16

/-- The low half `P[15:0]` (R221 step 4). -/
def lowHalf (p : BitVec 32) : Word := p.extractLsb' 0 16

/-- The quotient of DVD, rounded toward zero (R222 step 3). -/
def quotient (n d : Word) : Int := Int.tdiv (s16 n) (s16 d)

/-- The remainder of DVD, `n - q * d` (R222 step 3). -/
def remainder (n d : Word) : Int := s16 n - quotient n d * s16 d

/-- SRC (R241): right copies the sign (floor of the signed value over `2^n`), left is the plain left shift. The count is
not reduced modulo 16. -/
def shiftWord (dir : Direction) (n : Nat) (w : Word) : Word :=
  match dir with
  | .right => trunc16 (s16 w / (2 : Int) ^ n)
  | .left => BitVec.ofNat 16 (u16 w * 2 ^ n)

/-- One bit of rotation (R242): left moves bit 15 to bit 0, right moves bit 0 to bit 15. -/
def rotateOnce (dir : Direction) (w : Word) : Word :=
  match dir with
  | .left => BitVec.ofNat 16 (u16 w * 2 + u16 w / 32768)
  | .right => BitVec.ofNat 16 (u16 w / 2 + (u16 w % 2) * 32768)

/-- RRC (R242): the one-bit rotation, `n` times. -/
def rotateWord (dir : Direction) : Nat → Word → Word
  | 0, w => w
  | n + 1, w => rotateWord dir n (rotateOnce dir w)

/-- What OUT emits (R253): a character, a number, or nothing for a device id that is neither. -/
def outEvents (dev : Nat) (w : Word) : List OutEvent :=
  if dev = Config.devidChar then [.outChar (lowByte w)]
  else if dev = Config.devidNum then [.outNum (s16 w)]
  else []

end Sys2Proof.Machine
end

