-- ==== Sys2Proof/Machine/Flags.lean ====
section
/-! DEFINITION. The condition code: its values (R31), what each of its writers leaves in it (R32) and the one test that
reads it (R33, R203). -/

namespace Sys2Proof.Machine

/-- `CC_OVERFLOW` (R31). -/
def ccOverflow : BitVec 4 := 8
/-- `CC_UNDERFLOW` (R31). -/
def ccUnderflow : BitVec 4 := 4
/-- `CC_DIVZERO` (R31). -/
def ccDivZero : BitVec 4 := 2
/-- `CC_EQUAL` (R31). -/
def ccEqual : BitVec 4 := 1
/-- `CC_NONE` (R31). -/
def ccNone : BitVec 4 := 0

/-- AMR and SMR: overflow above the signed range, underflow below it (R180, R181, R182). -/
def ccOfExact (x : Int) : BitVec 4 :=
  if x > 32767 then ccOverflow else if x < -32768 then ccUnderflow else ccNone

/-- AIR names the overflow flag only (R183). -/
def ccOfSumImm (x : Int) : BitVec 4 := if x > 32767 then ccOverflow else ccNone

/-- SIR names the underflow flag only (R184). -/
def ccOfDiffImm (x : Int) : BitVec 4 := if x < -32768 then ccUnderflow else ccNone

/-- TRR: the equal flag, or the whole CC cleared (R223). -/
def ccOfCompare (a b : Word) : BitVec 4 := if a = b then ccEqual else ccNone

/-- JCC's test (R203): the whole CC equals `2^(3 - c)` for condition number c. -/
def condHolds (c : Cond) (cc : BitVec 4) : Bool := cc == oneHot (3 - c.number)

end Sys2Proof.Machine
end

