-- ==== Sys2Proof/Machine/Arithmetic.lean ====
section
/-! DEFINITION. Add and subtract (42_arithmetic.md): AMR, SMR, AIR, SIR. -/

namespace Sys2Proof.Machine

/-- AMR (R181). -/
def execAmr (r : GReg) (ix : Option XReg) (ind : Bool) (addr : Nat) (s : State) : Result :=
  (resolveEA ix ind addr s).andThen fun ea s1 =>
    (memRead ea s1).andThen fun m s2 =>
      complete (advance (setCC (ccOfExact (exactSum (s2.r.get r) m)) (setR r (trunc16 (exactSum (s2.r.get r) m)) s2)))

/-- SMR (R182). -/
def execSmr (r : GReg) (ix : Option XReg) (ind : Bool) (addr : Nat) (s : State) : Result :=
  (resolveEA ix ind addr s).andThen fun ea s1 =>
    (memRead ea s1).andThen fun m s2 =>
      complete (advance (setCC (ccOfExact (exactDiff (s2.r.get r) m)) (setR r (trunc16 (exactDiff (s2.r.get r) m)) s2)))

/-- AIR (R183). -/
def execAir (r : GReg) (imm : Nat) (s : State) : Result :=
  complete (advance
    (setCC (ccOfSumImm (exactSumImm (s.r.get r) imm)) (setR r (trunc16 (exactSumImm (s.r.get r) imm)) s)))

/-- SIR (R184). -/
def execSir (r : GReg) (imm : Nat) (s : State) : Result :=
  complete (advance
    (setCC (ccOfDiffImm (exactDiffImm (s.r.get r) imm)) (setR r (trunc16 (exactDiffImm (s.r.get r) imm)) s)))

end Sys2Proof.Machine
end

