-- ==== Sys2Proof/Machine/EngineCycle.lean ====
section
/-! DEFINITION. The one instruction of 40_engine_cycle.md: HLT. -/

namespace Sys2Proof.Machine

/-- HLT (R145): the engine state becomes Halted and nothing else changes; PC still names the HLT. -/
def execHlt (s : State) : Result := halt s

end Sys2Proof.Machine
end

