-- ==== Sys2Proof/Machine/LoadStore.lean ====
section
/-! DEFINITION. Load and store (41_load_store.md): LDR, STR, LDA, LDX, STX. -/

namespace Sys2Proof.Machine

/-- The store STR and STX share (R162, R166): a protected write raises fault 0 and stores nothing, otherwise the word is
written and PC advances. -/
def storeChecked (ea : Nat) (v : Word) (s : State) : Result :=
  if isProtected ea then raiseFault .protectedWrite s
  else (memWrite ea v s).andThen fun _ s1 => complete (advance s1)

/-- LDR (R161). -/
def execLdr (r : GReg) (ix : Option XReg) (ind : Bool) (addr : Nat) (s : State) : Result :=
  (resolveEA ix ind addr s).andThen fun ea s1 =>
    (memRead ea s1).andThen fun w s2 => complete (advance (setR r w s2))

/-- STR (R162). -/
def execStr (r : GReg) (ix : Option XReg) (ind : Bool) (addr : Nat) (s : State) : Result :=
  (resolveEA ix ind addr s).andThen fun ea s1 => storeChecked ea (s1.r.get r) s1

/-- LDA (R163): the effective address itself, truncated to a Word. -/
def execLda (r : GReg) (ix : Option XReg) (ind : Bool) (addr : Nat) (s : State) : Result :=
  (resolveEA ix ind addr s).andThen fun ea s1 => complete (advance (setR r (BitVec.ofNat 16 ea) s1))

/-- LDX (R164), and LDX with index field 0 (R165): the read is made and the word discarded. -/
def execLdx (ix : Option XReg) (ind : Bool) (addr : Nat) (s : State) : Result :=
  (resolveEA (movedIndex ix s) ind addr s).andThen fun ea s1 =>
    (memRead ea s1).andThen fun w s2 => complete (advance { s2 with x := s2.x.setField ix w })

/-- STX (R166), and STX with index field 0 (R170): it stalls after the resolver, with no check and no store. -/
def execStx (ix : Option XReg) (ind : Bool) (addr : Nat) (s : State) : Result :=
  (resolveEA (movedIndex ix s) ind addr s).andThen fun ea s1 =>
    match ix with
    | some j => storeChecked ea (s1.x.get j) s1
    | none => stall s1

end Sys2Proof.Machine
end

