-- ==== Sys2Proof/Machine/RegisterRegister.lean ====
section
/-! DEFINITION. Register to register (44_register_register.md): MLT, DVD, TRR, AND, ORR, NOT. Every right-hand side reads
the registers as they were before the instruction (R220). -/

namespace Sys2Proof.Machine

/-- MLT (R221, R227): the high half of the signed product in `R[rx]`, the low half in `R[rx + 1]`, CC cleared. -/
def execMlt (rx ry : GReg) (s : State) : Result :=
  complete (advance (setCC ccNone
    (setPair rx (highHalf (product32 (s.r.get rx) (s.r.get ry))) (lowHalf (product32 (s.r.get rx) (s.r.get ry))) s)))

/-- DVD (R222, R227): a zero divisor sets `CC_DIVZERO` and changes no register; otherwise the quotient goes to `R[rx]`,
the remainder to `R[rx + 1]`, and CC is cleared. -/
def execDvd (rx ry : GReg) (s : State) : Result :=
  if s.r.get ry = 0 then complete (advance (setCC ccDivZero s))
  else
    complete (advance (setCC ccNone
      (setPair rx (trunc16 (quotient (s.r.get rx) (s.r.get ry))) (trunc16 (remainder (s.r.get rx) (s.r.get ry))) s)))

/-- TRR (R223). -/
def execTrr (rx ry : GReg) (s : State) : Result :=
  complete (advance (setCC (ccOfCompare (s.r.get rx) (s.r.get ry)) s))

/-- AND (R224). -/
def execAnd (rx ry : GReg) (s : State) : Result := complete (advance (setR rx (s.r.get rx &&& s.r.get ry) s))

/-- ORR (R225). -/
def execOrr (rx ry : GReg) (s : State) : Result := complete (advance (setR rx (s.r.get rx ||| s.r.get ry) s))

/-- NOT (R226): `65535 - u16(R[r])`, every bit inverted. -/
def execNot (rx : GReg) (s : State) : Result :=
  complete (advance (setR rx (BitVec.ofNat 16 (65535 - u16 (s.r.get rx))) s))

end Sys2Proof.Machine
end

