-- ==== Sys2Proof/Machine/ShiftRotate.lean ====
section
/-! DEFINITION. Shift and rotate (45_shift_rotate.md): SRC, RRC. Neither writes CC (R240). -/

namespace Sys2Proof.Machine

/-- SRC (R241). -/
def execSrc (r : GReg) (dir : Direction) (count : Nat) (s : State) : Result :=
  complete (advance (setR r (shiftWord dir count (s.r.get r)) s))

/-- RRC (R242). -/
def execRrc (r : GReg) (dir : Direction) (count : Nat) (s : State) : Result :=
  complete (advance (setR r (rotateWord dir count (s.r.get r)) s))

end Sys2Proof.Machine
end

