-- ==== Sys2Proof/Machine/Transfer.lean ====
section
/-! DEFINITION. Transfer of control (43_transfer.md): JZ, JNE, JCC, JMA, JSR, RFS, SOB, JGE. -/

namespace Sys2Proof.Machine

/-- A conditional transfer (R135, R200): to the effective address if taken, to the next instruction if not. -/
def branch (taken : Bool) (ea : Nat) (s : State) : Result :=
  complete (if taken then jumpTo ea s else advance s)

/-- JZ (R201). -/
def execJz (r : GReg) (ix : Option XReg) (ind : Bool) (addr : Nat) (s : State) : Result :=
  (resolveEA ix ind addr s).andThen fun ea s1 => branch (s1.r.get r == 0) ea s1

/-- JNE (R202). -/
def execJne (r : GReg) (ix : Option XReg) (ind : Bool) (addr : Nat) (s : State) : Result :=
  (resolveEA ix ind addr s).andThen fun ea s1 => branch (s1.r.get r != 0) ea s1

/-- JCC (R203). -/
def execJcc (c : Cond) (ix : Option XReg) (ind : Bool) (addr : Nat) (s : State) : Result :=
  (resolveEA ix ind addr s).andThen fun ea s1 => branch (condHolds c s1.cc) ea s1

/-- JMA (R204). -/
def execJma (ix : Option XReg) (ind : Bool) (addr : Nat) (s : State) : Result :=
  (resolveEA ix ind addr s).andThen fun ea s1 => complete (jumpTo ea s1)

/-- JSR (R205): the link register is always `R[3]`. -/
def execJsr (ix : Option XReg) (ind : Bool) (addr : Nat) (s : State) : Result :=
  (resolveEA ix ind addr s).andThen fun ea s1 => complete (jumpTo ea (setR .r3 (s1.pc + 1) s1))

/-- RFS (R206): `R[0]` gets the immediate and PC gets `R[3]`. -/
def execRfs (imm : Nat) (s : State) : Result :=
  complete { setR .r0 (BitVec.ofNat 16 imm) s with pc := s.r.get .r3 }

/-- SOB (R207): taken if the signed reading of the decremented register is above 0. -/
def execSob (r : GReg) (ix : Option XReg) (ind : Bool) (addr : Nat) (s : State) : Result :=
  (resolveEA ix ind addr s).andThen fun ea s1 =>
    branch (decide (s16 (s1.r.get r - 1) > 0)) ea (setR r (s1.r.get r - 1) s1)

/-- JGE (R208). -/
def execJge (r : GReg) (ix : Option XReg) (ind : Bool) (addr : Nat) (s : State) : Result :=
  (resolveEA ix ind addr s).andThen fun ea s1 => branch (decide (s16 (s1.r.get r) ≥ 0)) ea s1

end Sys2Proof.Machine
end

