-- ==== Sys2Proof/Machine/TrapIo.lean ====
section
/-! DEFINITION. Trap, input, output and illegal opcodes (46_trap_io.md). -/

namespace Sys2Proof.Machine

/-- TRAP (R251): the return address is saved in word 2 and PC cleared before the code is checked; a code above 8 raises
fault 1 with that cleared PC, any other continues at `M[0] + code`. -/
def execTrap (code : Nat) (s : State) : Result :=
  (saveTrapReturn s).andThen fun _ s1 =>
    if Config.params.trapCodeMax < code then raiseFault .invalidTrapCode s1 else vectorTrap code s1

/-- IN (R252): the front of the queue, or a blocked step that leaves PC where it is. -/
def execInput (r : GReg) (s : State) : Result :=
  match s.inq with
  | w :: rest => complete (advance { setR r w s with inq := rest })
  | [] => await s

/-- OUT (R253): emits what the device id selects and always completes. -/
def execOutput (r : GReg) (dev : Nat) (s : State) : Result :=
  complete (advance { s with outs := s.outs ++ outEvents dev (s.r.get r) })

/-- What the engine does with a word whose opcode is not in the table (R254). -/
def execIllegal (s : State) : Result := raiseFault .illegalOpcode s

end Sys2Proof.Machine
end

