-- ==== Sys2Proof/Machine/Dispatch.lean ====
section
/-! DEFINITION. Which meaning each instruction has (R134): one arm for each constructor of `Instr`. -/

namespace Sys2Proof.Machine

def exec (i : Instr) (s : State) : Host.Outcome State Fault Refusal :=
  match i with
  | .hlt => Sys2Proof.Machine.execHlt s
  | .ldr r ix ind addr => Sys2Proof.Machine.execLdr r ix ind addr s
  | .str r ix ind addr => Sys2Proof.Machine.execStr r ix ind addr s
  | .lda r ix ind addr => Sys2Proof.Machine.execLda r ix ind addr s
  | .amr r ix ind addr => Sys2Proof.Machine.execAmr r ix ind addr s
  | .smr r ix ind addr => Sys2Proof.Machine.execSmr r ix ind addr s
  | .air r imm => Sys2Proof.Machine.execAir r imm s
  | .sir r imm => Sys2Proof.Machine.execSir r imm s
  | .jz r ix ind addr => Sys2Proof.Machine.execJz r ix ind addr s
  | .jne r ix ind addr => Sys2Proof.Machine.execJne r ix ind addr s
  | .jcc c ix ind addr => Sys2Proof.Machine.execJcc c ix ind addr s
  | .jma ix ind addr => Sys2Proof.Machine.execJma ix ind addr s
  | .jsr ix ind addr => Sys2Proof.Machine.execJsr ix ind addr s
  | .rfs imm => Sys2Proof.Machine.execRfs imm s
  | .sob r ix ind addr => Sys2Proof.Machine.execSob r ix ind addr s
  | .jge r ix ind addr => Sys2Proof.Machine.execJge r ix ind addr s
  | .mlt rx ry => Sys2Proof.Machine.execMlt rx ry s
  | .dvd rx ry => Sys2Proof.Machine.execDvd rx ry s
  | .trr rx ry => Sys2Proof.Machine.execTrr rx ry s
  | .and rx ry => Sys2Proof.Machine.execAnd rx ry s
  | .orr rx ry => Sys2Proof.Machine.execOrr rx ry s
  | .not rx => Sys2Proof.Machine.execNot rx s
  | .src r dir count => Sys2Proof.Machine.execSrc r dir count s
  | .rrc r dir count => Sys2Proof.Machine.execRrc r dir count s
  | .trap code => Sys2Proof.Machine.execTrap code s
  | .ldx ix ind addr => Sys2Proof.Machine.execLdx ix ind addr s
  | .stx ix ind addr => Sys2Proof.Machine.execStx ix ind addr s
  | .input r => Sys2Proof.Machine.execInput r s
  | .output r dev => Sys2Proof.Machine.execOutput r dev s

end Sys2Proof.Machine
end

