-- ==== Sys2Proof/Machine/Cycle.lean ====
section
/-! DEFINITION. The execution cycle (40_engine_cycle.md): decode and execute the word in IR (R133, R134), one whole step
(R132 to R134), and how an instruction word is put where the next step fetches it. -/

namespace Sys2Proof.Machine

/-- Stages 2 to 4 (R133, R134): the word in IR is decoded and its instruction executed; an opcode that is not in the
table dispatches fault 2 (R254), before any resolver activity (R281). `LR_BIT` is the machine's (R9, log 8). -/
def decodeExecute (s : State) : Result :=
  match decode s.readings.lrBit s.ir with
  | .ok i => exec i s
  | .error _ => execIllegal s

/-- `step` (R132 to R134, R322): fetch, then decode and execute. It may be called in any engine state (R138). -/
def stepEngine (s : State) : Result := (fetch s).andThen fun _ s1 => decodeExecute s1

/-- `executeRaw(word)` (R137, R324): IR is set directly and there is no fetch. -/
def executeRaw (word : Word) (s : State) : Result := decodeExecute { s with ir := word }

/-- The state with a word stored where the next fetch reads it: at PC in the Word Store, and in the cache's line for that
address if it holds one, so that the line does not hide the word. A PC the fetch would stall on (R132) is first set to 0.
-/
def placeAtFetch (s : State) (word : Word) : State :=
  let s0 : State := if u16 s.pc < s.cap then s else { s with pc := 0 }
  { s0 with mem := s0.mem.writeWord (u16 s0.pc) word, cache := s0.cache.update (u16 s0.pc) word }

end Sys2Proof.Machine
end

