-- ==== Sys2Proof/Machine/Step.lean ====
section
/-! DEFINITION. One step of the machine, and the placing of an instruction where it fetches. -/

namespace Sys2Proof.Machine

/-- One `step` of the engine (R322). -/
def step (s : State) : Host.Outcome State Fault Refusal := stepEngine s

/-- The state with an instruction of spec/opcode_table.json stored where the next step fetches: the low `nbits` bits of
`w`, zeros above, in the one 16-bit word an instruction has (R100). It stands for the loader's raw store (R315; log 10).
-/
def State.withFetchWord (s : State) (nbits w : Nat) : State := placeAtFetch s (BitVec.ofNat 16 (w % 2 ^ nbits))

end Sys2Proof.Machine
end

