-- ==== Sys2Proof/Machine/HostOps.lean ====
section
/-! DEFINITION. What the host may do between steps (70_reset_and_hazards.md R310 to R327, R318): resets, raw access to the
Word Store, the register slots, injection, the run loop, input, expansion and loading. The types of the arguments and
replies are a DESIGN CHOICE (log 20); the host's batch driver is left out (DEDUCED, log 22). -/

namespace Sys2Proof.Machine

/-- What a host operation reports besides the state (R87, R66, R295). -/
inductive HostReply where
  | ok
  /-- A raw store at or above the capacity (R87). -/
  | outOfRange
  /-- A second `Expand` (R66). -/
  | alreadyExpanded
  deriving DecidableEq, Repr

/-- `PowerOn` (R310): every piece of state at its reset value. The machine's parameters are not state and stay (R9, log 8).
-/
def powerOn (s : State) : State := { State.reset with readings := s.readings }

/-- `StoreReset(keepReserved)` (R67, R312): the store zeroed but for words 0 to 31 if they are kept, the capacity back to
`C0`, the cache emptied (D24); nothing else changes. -/
def storeReset (keepReserved : Bool) (s : State) : State :=
  { s with
    mem := s.mem.keepBelow (if keepReserved then Config.params.keepWords else 0)
    expanded := false
    cache := [] }

/-- `RawStore(a, v)` (R87): the store alone changes, with no protection, not the cache and not MAR or MBR. -/
def rawStore (a : Nat) (v : Word) (s : State) : State × HostReply :=
  match storeWrite s a v with
  | some m => ({ s with mem := m }, .ok)
  | none => (s, .outOfRange)

/-- `RawLoad(a)` (R87): the word in the store, or `none` for OutOfRange; no state changes. -/
def rawLoad (a : Nat) (s : State) : Option Word := storeRead s a

/-- `Expand()` (R66, R326): the capacity doubles once and the new words are 0; the cache is not touched. -/
def expand (s : State) : State × HostReply :=
  if s.expanded then (s, .alreadyExpanded)
  else ({ s with mem := s.mem.keepBelow Config.params.c0, expanded := true }, .ok)

/-- The 13 register slots in the order of R44. -/
inductive Slot where
  | r (i : GReg)
  | x (j : XReg)
  | pc | ir | cc | mar | mbr | mfr
  deriving DecidableEq, Repr

/-- The slot with a number (R44); `none` outside 0 to 12. -/
def Slot.ofNumber (n : Int) : Option Slot :=
  if n = 0 then some (.r .r0)
  else if n = 1 then some (.r .r1)
  else if n = 2 then some (.r .r2)
  else if n = 3 then some (.r .r3)
  else if n = 4 then some (.x .x1)
  else if n = 5 then some (.x .x2)
  else if n = 6 then some (.x .x3)
  else if n = 7 then some .pc
  else if n = 8 then some .ir
  else if n = 9 then some .cc
  else if n = 10 then some .mar
  else if n = 11 then some .mbr
  else if n = 12 then some .mfr
  else none

/-- The value of a slot, the 4-bit ones zero-extended to a Word (R11, R44). -/
def readSlot (s : State) : Slot → Word
  | .r i => s.r.get i
  | .x j => s.x.get j
  | .pc => s.pc
  | .ir => s.ir
  | .cc => s.cc.setWidth 16
  | .mar => s.mar
  | .mbr => s.mbr
  | .mfr => s.mfr.setWidth 16

/-- A slot written with a value truncated to the slot's width (R45). -/
def writeSlot (v : Int) (s : State) : Slot → State
  | .r i => setR i (trunc16 v) s
  | .x j => { s with x := s.x.set j (trunc16 v) }
  | .pc => { s with pc := trunc16 v }
  | .ir => { s with ir := trunc16 v }
  | .cc => { s with cc := BitVec.ofInt 4 v }
  | .mar => { s with mar := trunc16 v }
  | .mbr => { s with mbr := trunc16 v }
  | .mfr => { s with mfr := BitVec.ofInt 4 v }

/-- `getRegister(s)` (R45, R320): the slot's value, or `none`, the sentinel `INVALID`. -/
def getRegister (n : Int) (s : State) : Option Word := (Slot.ofNumber n).map (readSlot s)

/-- `setRegister(s, v)` (R45, R320): a slot outside 0 to 12 changes nothing. -/
def setRegister (n v : Int) (s : State) : State :=
  match Slot.ofNumber n with
  | some slot => writeSlot v s slot
  | none => s

/-- What a bounded run of the `run` loop answers. -/
inductive RunEnd where
  /-- `run` returned in this state (R136, R323). -/
  | returned (s : State)
  /-- The step bound was reached and the loop goes on from this state: `run` itself may never return (R136, R279). -/
  | stillRunning (s : State)
  deriving DecidableEq, Repr

/-- The test of the run loop, made after each step (R136): IR holds the halt opcode, or the engine awaits input. -/
def runStops (s : State) : Bool := (opField s.ir == 0) || (s.engine == .awaitingInput)

/-- `run` (R136, R323) for at most `fuel` steps (log 12). -/
def run : Nat → State → Host.Outcome RunEnd Fault Refusal
  | 0, s => .next (.stillRunning s)
  | fuel + 1, s =>
    match step s with
    | .next t => if runStops t then .next (.returned t) else run fuel t
    | .fault f => .fault f
    | .refused f => .refused f

/-- The part of `supplyInput` before the run loop (R325 steps 1 and 2): the queue is replaced by the words, each
truncated (R38), `WAIT` becomes has-input, and a waiting engine becomes Ready. -/
def fillQueue (words : List Int) (s : State) : State :=
  { s with
    inq := words.map trunc16
    wait := .hasInput
    engine := if s.engine = .awaitingInput then .ready else s.engine }

/-- `supplyInput(words)` (R325, R39): a waiting engine re-enters the run loop, for at most `fuel` steps; otherwise no
step is made. -/
def supplyInput (fuel : Nat) (words : List Int) (s : State) : Host.Outcome RunEnd Fault Refusal :=
  if s.engine = .awaitingInput then run fuel (fillQueue words s) else .next (.returned (fillQueue words s))

/-- The raw stores of a list of (address, word) pairs, in order (R315 step 2, R327); one out of range changes nothing. -/
def rawStores (image : List (Nat × Word)) (s : State) : State :=
  image.foldl (fun t p => (rawStore p.1 p.2 t).1) s

/-- `loadProgram` and `loadBootstrap` (R327): a store reset, then the image's raw stores. Which words, and whether the
reserved words are kept, no source says: they are arguments (R9, D36; log 13). -/
def loadImage (keepReserved : Bool) (image : List (Nat × Word)) (s : State) : State :=
  rawStores image (storeReset keepReserved s)

/-- A call of the host that does not enter the run loop (R318). -/
inductive HostCall where
  | powerOn
  | storeReset (keepReserved : Bool)
  | rawStore (a : Nat) (v : Word)
  | rawLoad (a : Nat)
  | getRegister (n : Int)
  | setRegister (n v : Int)
  | step
  | executeRaw (w : Word)
  /-- `supplyInput` up to its run loop, whose steps are calls of `step`. -/
  | fillQueue (words : List Int)
  | expand
  | load (keepReserved : Bool) (image : List (Nat × Word))
  deriving DecidableEq, Repr

/-- What a host call does to the state (R318). The host makes them one at a time, never in the middle of an instruction;
`run` is `step` repeated (R136). -/
def hostCall (c : HostCall) (s : State) : Result :=
  match c with
  | .powerOn => .next (Sys2Proof.Machine.powerOn s)
  | .storeReset keep => .next (Sys2Proof.Machine.storeReset keep s)
  | .rawStore a v => .next (Sys2Proof.Machine.rawStore a v s).1
  | .rawLoad _ => .next s
  | .getRegister _ => .next s
  | .setRegister n v => .next (Sys2Proof.Machine.setRegister n v s)
  | .step => Sys2Proof.Machine.step s
  | .executeRaw w => Sys2Proof.Machine.executeRaw w s
  | .fillQueue words => .next (Sys2Proof.Machine.fillQueue words s)
  | .expand => .next (Sys2Proof.Machine.expand s).1
  | .load keep image => .next (loadImage keep image s)

end Sys2Proof.Machine
end

