-- ==== Sys2Proof/Safety.lean ====
section
/-! DEFINITION. The terms claims about runs are stated in: the words of the store, coherence (R74), the machine's
invariant, and the states a memory access leaves when nothing goes wrong. -/

namespace Sys2Proof.Machine

/-- `M[a]` (R13): the word the store holds at a word address. -/
def State.word (s : State) (a : Nat) : Word := s.mem.readWord a

/-- `COHERENT` (R74): every line's address is in range and its word is the store's, and no address has two lines. -/
abbrev State.Coherent (s : State) : Prop :=
  (∀ l ∈ s.cache, l.addr < s.cap ∧ s.word l.addr = l.word) ∧ (s.cache.map CacheLine.addr).Nodup

/-- The memory side is in order: coherent (R74), at most 16 lines (R42, R68), the store in its canonical form with no
byte outside the capacity (R41). -/
structure State.MemoryInvariant (s : State) : Prop where
  coherent : s.Coherent
  lines : s.cache.length ≤ Config.params.cacheLines
  canonical : s.mem.wf = true
  bounded : s.mem.below s.cap = true

/-- CC holds none or one of its four flags (R30, R31). -/
abbrev State.CCLegal (s : State) : Prop := s.cc = 0 ∨ s.cc = 1 ∨ s.cc = 2 ∨ s.cc = 4 ∨ s.cc = 8

/-- MFR holds nothing or one of the three kinds the core raises (R35, R276). -/
abbrev State.MFRLegal (s : State) : Prop := s.mfr = 0 ∨ s.mfr = 1 ∨ s.mfr = 2 ∨ s.mfr = 4

/-- A waiting engine has the wait flag at blocked-waiting (R39, R252). DEDUCED: log 17. -/
abbrev State.WaitAgrees (s : State) : Prop := s.engine = .awaitingInput → s.wait = .blockedWaiting

/-- The engine is stuck at an instruction: its last step stalled. Not a normal end of a run (R279). -/
def State.stalled (s : State) : Bool := s.outcome == .stall

/-- A normal end of a run (R293): the engine has halted. -/
def State.finished (s : State) : Bool := s.engine == .halted

/-- The state a successful read of the store at `a` leaves in a coherent machine: MAR, MBR and the cache (R75, R70). -/
def State.afterRead (a : Nat) (s : State) : State :=
  { s with mar := BitVec.ofNat 16 a, mbr := s.word a, cache := s.cache.afterRead a (s.word a) }

/-- The state a successful write of `v` at `a` leaves (R76, R72). -/
def State.afterWrite (a : Nat) (v : Word) (s : State) : State :=
  { s with
    mar := BitVec.ofNat 16 a
    mbr := v
    mem := s.mem.writeWord a v
    cache := s.cache.afterWrite a v }

/-- The effective address R140 defines, read from the store. -/
def State.ea (ix : Option XReg) (ind : Bool) (addr : Nat) (s : State) : Nat :=
  if ind then (s.word (baseAddress ix addr s)).toNat else baseAddress ix addr s

/-- The state after the resolver: the indirect fetch has been made if there is one (R140, R142). -/
def State.afterResolve (ix : Option XReg) (ind : Bool) (addr : Nat) (s : State) : State :=
  if ind then s.afterRead (baseAddress ix addr s) else s

/-- The resolver does not stall: the indirect fetch, if there is one, is in range (R142). -/
def State.CanResolve (ix : Option XReg) (ind : Bool) (addr : Nat) (s : State) : Prop :=
  ind = true → baseAddress ix addr s < s.cap

/-- `h` is `g` with `R[i]` holding `v` and every other general register unchanged (R21, R28). -/
def GRegs.IsUpdate (g h : GRegs) (i : GReg) (v : Word) : Prop :=
  h.get i = v ∧ ∀ j, j ≠ i → h.get j = g.get j

/-- `y` is `x` with `X[i]` holding `v` and every other index register unchanged (R22, R28). -/
def XRegs.IsUpdate (x y : XRegs) (i : XReg) (v : Word) : Prop :=
  y.get i = v ∧ ∀ j, j ≠ i → y.get j = x.get j

/-- The host's duty of R330: a raw store is made only while the cache holds no line for its address. -/
abbrev HostCall.DutyKept (c : HostCall) (s : State) : Prop :=
  ∀ (a : Nat) (v : Word), c = .rawStore a v → ∀ l ∈ s.cache, l.addr ≠ a

/-- The second state is reached from the first by any number of steps, injected instructions and other calls of the host,
each within the host's duty (R330), and none of them changed the word at `a`. -/
inductive ReachesKeepingWord (a : Nat) : State → State → Prop
  | refl (s : State) : ReachesKeepingWord a s s
  | call {s t u : State} (c : HostCall) : ReachesKeepingWord a s t → c.DutyKept t → hostCall c t = .next u →
      u.word a = t.word a → ReachesKeepingWord a s u

/-- The state with outcome `Next` and engine state Ready (R131). -/
def State.completed (s : State) : State := { s with engine := .ready, outcome := .next }

/-- The state with outcome `Stall` and engine state Ready (R131, R278). -/
def State.stalledAt (s : State) : State := { s with engine := .ready, outcome := .stall }

/-- The state the dispatch of a machine fault leaves (R272). -/
def State.faulted (kind : FaultKind) (s : State) : State :=
  ({ s.afterWrite 4 (s.pc + 1) with pc := 1, mfr := oneHot kind.number } : State).completed

/-- The state a successful fetch leaves in a coherent machine (R132). -/
def State.fetched (s : State) : State := { s.afterRead s.pc.toNat with ir := s.word s.pc.toNat }

/-- The 29 opcodes of the table (R107). -/
def tableOpcodes : List Nat :=
  [0, 1, 2, 3, 4, 5, 6, 7, 8, 9, 10, 11, 12, 13, 14, 15, 16, 17, 18, 19, 20, 21, 25, 26, 30, 33, 34, 49, 50]

end Sys2Proof.Machine
end

