-- ==== Sys2Proof/Certificates/Slice0/Obligations.lean ====
section
/-! DEFINITION. The statements for the provers. Each docstring names the rules of spec/ it rests on and, where the spec
marks the point as its own decision or inference or the model chose it, says so. In every statement of the form
`t = { … with … }` the fields not named are those of the state before: that is the instruction's frame. `State.word` is
the model's read of the smallest unit of memory, a word (R60, R61): two states that agree on it agree on every byte. The
two open readings of R9, `LDX_STX_INDEXED` and `LR_BIT`, are an argument or a field of the state, `readings`: what is said
of every `lr` or of every state is said of both values of each (log 8). -/

open Sys2Proof Sys2Proof.Machine

/-! ## Encoding -/

/-- Decoding an encoded well-formed instruction gives it back, for every instruction and operand and either `LR_BIT` (R101,
R107, R114). The positions of the fields below the opcode are the spec's decision D2, the direction bit D10 (log 8). -/
def Obligations.DecodeUndoesEncode : Prop :=
  ∀ (lr : Config.LRBit) (i : Instr), i.wf = true → decode lr (encode lr i) = .ok i

/-- Encoding a decoded word gives the word back with every bit its format ignores cleared, and what is decoded is well
formed (R102 to R105, R109, R114; the positions of the fields are decision D2, the direction bit D10, log 8). -/
def Obligations.EncodeKeepsReadBits : Prop :=
  ∀ (lr : Config.LRBit) (w : Word) (i : Instr), decode lr w = .ok i →
    i.wf = true ∧ encode lr i = w &&& i.readBits lr

/-- Two words that agree on the bits the format reads are the same instruction (R109; decisions D2, D4, D10, D17, D31). -/
def Obligations.IgnoredBitsDoNotMatter : Prop :=
  ∀ (lr : Config.LRBit) (w w' : Word) (i : Instr), decode lr w = .ok i → w' &&& i.readBits lr = w &&& i.readBits lr →
    decode lr w' = .ok i

/-- A word is an instruction exactly when its opcode, `w / 1024`, is one of the 29 of the table; any other word is
rejected with its opcode (R107, R108). -/
def Obligations.ExactlyTheTableOpcodesDecode : Prop :=
  ∀ (lr : Config.LRBit) (w : Word),
    (w.toNat / 1024 ∈ tableOpcodes → ∃ i, decode lr w = .ok i ∧ i.opcode = w.toNat / 1024) ∧
    (w.toNat / 1024 ∉ tableOpcodes → decode lr w = .error (.illegalOpcode (BitVec.ofNat 6 (w.toNat / 1024))))

/-- Words of the spec's own examples, one or more of each format, decode to the instruction the rule prints beside them
(R114, R145, R161, R166, R181, R183, R203, R206, R222, R241, R242, R253). Every one rests on the positions of the fields,
the spec's decision D2 (log 1); SRC and RRC, 0x6584 and 0x6A44, decode as printed with `LR_BIT` 6, decision D10 (DESIGN
CHOICE, log 8), and in the other direction with 7. -/
def Obligations.SpecExampleWordsDecode : Prop :=
  (∀ lr : Config.LRBit,
    decode lr 0x0000 = .ok .hlt ∧ decode lr 0x051D = .ok (.ldr .r1 none false 29) ∧
    decode lr 0x889D = .ok (.stx (some .x2) false 29) ∧ decode lr 0x101F = .ok (.amr .r0 none false 31) ∧
    decode lr 0x1A1F = .ok (.air .r2 31) ∧ decode lr 0x283E = .ok (.jcc .overflow none true 30) ∧
    decode lr 0x2C22 = .ok (.jma none true 2) ∧ decode lr 0x3407 = .ok (.rfs 7) ∧
    decode lr 0x4480 = .ok (.dvd .r0 .r2) ∧ decode lr 0x7809 = .ok (.trap 9) ∧
    decode lr 0xC902 = .ok (.output .r1 2)) ∧
  decode .bit6 0x6584 = .ok (.src .r1 .right 4) ∧ decode .bit6 0x6A44 = .ok (.rrc .r2 .left 4) ∧
  decode .bit7 0x6584 = .ok (.src .r1 .left 4) ∧ decode .bit7 0x6A44 = .ok (.rrc .r2 .right 4)

/-! ## The step -/

/-- The step runs the fetched instruction: when the fetched word decodes, the step is that instruction's meaning in the
state after the fetch; in a coherent machine that word is the store's at PC (R132 to R134). An injected word that decodes
runs with the current PC and no fetch: only IR is set (R137, R324; decision D33). Decoding takes the machine's own
`LR_BIT` (R9, log 8). -/
def Obligations.StepRunsDecodedInstruction : Prop :=
  ∀ (s : State) (w : Word) (i : Instr), decode s.readings.lrBit w = .ok i →
    (∀ u, fetch s = .ok w u → step s = exec i u) ∧
    (s.Coherent → s.pc.toNat < s.cap → s.word s.pc.toNat = w → step s = exec i s.fetched) ∧
    executeRaw w s = exec i { s with ir := w }

/-- The fetch (R132): in range it leaves the word of the store at PC in MBR and IR, PC in MAR and a line for PC in the
cache; out of range the step changes MAR alone and its outcome is `Stall`. -/
def Obligations.FetchReadsWordAtPC : Prop :=
  ∀ s : State, s.Coherent →
    (s.pc.toNat < s.cap → fetch s = .ok (s.word s.pc.toNat) s.fetched ∧
      ∃ l ∈ s.fetched.cache, l.addr = s.pc.toNat ∧ l.word = s.word s.pc.toNat) ∧
    (s.cap ≤ s.pc.toNat → step s = .next ({ s with mar := s.pc } : State).stalledAt)

/-- A word with an illegal opcode dispatches fault 2, whether injected or fetched, from the state with that word in IR:
PC + 1 goes to word 4, PC to 1, MFR to 4, and nothing else changes but the mirror of that write in MAR, MBR and the cache
(R254). -/
def Obligations.IllegalOpcodeFaults : Prop :=
  ∀ (s u : State) (w : Word) (answer : Result), w.toNat / 1024 ∉ tableOpcodes →
    (u = { s with ir := w } ∧ answer = executeRaw w s) ∨ (fetch s = .ok w u ∧ answer = step s) →
    ∃ t, answer = .next t ∧
      t = ({ u with
              mem := t.mem
              cache := u.cache.afterWrite 4 (u.pc + 1)
              mar := 4
              mbr := u.pc + 1
              pc := 1
              mfr := 4 } : State).completed ∧
      t.word 4 = u.pc + 1 ∧ ∀ a, a ≠ 4 → t.word a = u.word a

/-- Every step answers a next state, with exactly one of the four outcomes, the engine state that goes with it, and PC
unchanged in all but `Next` (R131, R135, R138). -/
def Obligations.StepOutcomeMatchesEngineState : Prop :=
  ∀ s : State, ∃ t, step s = .next t ∧
    ((t.outcome = .next ∧ t.engine = .ready) ∨
     (t.outcome = .halt ∧ t.engine = .halted ∧ t.pc = s.pc) ∨
     (t.outcome = .await ∧ t.engine = .awaitingInput ∧ t.pc = s.pc ∧ s.inq = []) ∨
     (t.outcome = .stall ∧ t.engine = .ready ∧ t.pc = s.pc))

/-! ## The effective address -/

/-- The resolver computes the effective address of R140 (R140 to R143): displacement plus the unsigned index register,
not truncated, through one level of indirection; it stalls exactly when the indirect fetch is out of range. LDX and STX
give it no index register by default (decision D5), and the one their field names with `LDX_STX_INDEXED` (R141, log 8). -/
def Obligations.ResolverComputesEA : Prop :=
  ∀ (s : State) (ix : Option XReg) (ind : Bool) (addr : Nat), s.Coherent →
    (s.CanResolve ix ind addr → resolveEA ix ind addr s = .ok (s.ea ix ind addr) (s.afterResolve ix ind addr)) ∧
    (¬ s.CanResolve ix ind addr →
      resolveEA ix ind addr s = .stalled { s with mar := BitVec.ofNat 16 (baseAddress ix addr s) }) ∧
    (∀ j, ix = some j → baseAddress ix addr s = (s.x.get j).toNat + addr) ∧
    (ix = none → baseAddress ix addr s = addr) ∧
    movedIndex ix s = if s.readings.ldxStxIndexed then ix else none

/-! ## Load and store -/

/-- LDR loads the word at the effective address into its register and PC advances (R161). -/
def Obligations.LdrLoadsWord : Prop :=
  ∀ (s : State) (r : GReg) (ix : Option XReg) (ind : Bool) (addr : Nat),
    s.Coherent → s.CanResolve ix ind addr → s.ea ix ind addr < s.cap →
    ∃ t, exec (.ldr r ix ind addr) s = .next t ∧
      s.r.IsUpdate t.r r (s.word (s.ea ix ind addr)) ∧
      t = ({ (s.afterResolve ix ind addr).afterRead (s.ea ix ind addr) with r := t.r, pc := s.pc + 1 } : State).completed

/-- STR stores its register at the address the resolver gives, above 27 and below CAP: that word alone changes in memory,
the cache is written through, and PC advances (R162, R72). -/
def Obligations.StrStoresWord : Prop :=
  ∀ (s s1 : State) (r : GReg) (ix : Option XReg) (ind : Bool) (addr ea : Nat),
    resolveEA ix ind addr s = .ok ea s1 → 27 < ea → ea < s.cap →
    ∃ t, exec (.str r ix ind addr) s = .next t ∧
      t = ({ s with
              mar := BitVec.ofNat 16 ea
              mbr := s.r.get r
              mem := t.mem
              cache := s1.cache.afterWrite ea (s.r.get r)
              pc := s.pc + 1 } : State).completed ∧
      t.word ea = s.r.get r ∧ ∀ a, a ≠ ea → t.word a = s.word a

/-- LDA loads the effective address itself, truncated to a Word, with no range check on it (R163, R143). -/
def Obligations.LdaLoadsAddress : Prop :=
  ∀ (s : State) (r : GReg) (ix : Option XReg) (ind : Bool) (addr : Nat),
    s.Coherent → s.CanResolve ix ind addr →
    ∃ t, exec (.lda r ix ind addr) s = .next t ∧
      s.r.IsUpdate t.r r (BitVec.ofNat 16 (s.ea ix ind addr)) ∧
      t = ({ s.afterResolve ix ind addr with r := t.r, pc := s.pc + 1 } : State).completed

/-- LDX loads the word at its effective address into the index register its field names, and into none when the field is
0; the address is not indexed by default, and is with `LDX_STX_INDEXED` (R141, R164, R165; decisions D5, D16, log 8). -/
def Obligations.LdxLoadsIndexRegister : Prop :=
  ∀ (s : State) (ix m : Option XReg) (ind : Bool) (addr : Nat), m = (if s.readings.ldxStxIndexed then ix else none) →
    s.Coherent → s.CanResolve m ind addr → s.ea m ind addr < s.cap →
    ∃ t, exec (.ldx ix ind addr) s = .next t ∧
      (∀ j, ix = some j → s.x.IsUpdate t.x j (s.word (s.ea m ind addr))) ∧
      (ix = none → t.x = s.x) ∧
      t = ({ (s.afterResolve m ind addr).afterRead (s.ea m ind addr) with x := t.x, pc := s.pc + 1 } : State).completed

/-- STX stores its index register at the address the resolver gives, above 27 and below CAP: for no index by default, for
the same register with `LDX_STX_INDEXED` (R141, R166; decision D5, log 8). -/
def Obligations.StxStoresIndexRegister : Prop :=
  ∀ (s s1 : State) (j : XReg) (m : Option XReg) (ind : Bool) (addr ea : Nat),
    m = (if s.readings.ldxStxIndexed then some j else none) →
    resolveEA m ind addr s = .ok ea s1 → 27 < ea → ea < s.cap →
    ∃ t, exec (.stx (some j) ind addr) s = .next t ∧
      t = ({ s with
              mar := BitVec.ofNat 16 ea
              mbr := s.x.get j
              mem := t.mem
              cache := s1.cache.afterWrite ea (s.x.get j)
              pc := s.pc + 1 } : State).completed ∧
      t.word ea = s.x.get j ∧ ∀ a, a ≠ ea → t.word a = s.word a

/-- STX with index field 0 stalls after the resolver, with no check, no store and no fault (R170, decision D16). -/
def Obligations.StxWithoutIndexRegisterStalls : Prop :=
  ∀ (s : State) (ind : Bool) (addr : Nat), s.Coherent → s.CanResolve none ind addr →
    exec (.stx none ind addr) s = .next (s.afterResolve none ind addr).stalledAt

/-- STR, and STX with an index register, to an address up to 27 dispatch fault 0 and store nothing there: only word 4,
the fault return slot, is written (R162, R166, R273; decision D32). STX's address is indexed only with `LDX_STX_INDEXED`
(R141, decision D5, log 8). -/
def Obligations.ProtectedStoreFaults : Prop :=
  ∀ (s s1 : State) (ind : Bool) (addr ea : Nat), ea ≤ 27 →
    ∀ (i : Instr), ((∃ r ix, i = .str r ix ind addr ∧ resolveEA ix ind addr s = .ok ea s1) ∨
      (∃ j, i = .stx (some j) ind addr ∧
        resolveEA (if s.readings.ldxStxIndexed then some j else none) ind addr s = .ok ea s1)) →
    ∃ t, exec i s = .next t ∧
      t = ({ s with
              mar := 4
              mbr := s.pc + 1
              mem := t.mem
              cache := s1.cache.afterWrite 4 (s.pc + 1)
              pc := 1
              mfr := 1 } : State).completed ∧
      t.word 4 = s.pc + 1 ∧ ∀ a, a ≠ 4 → t.word a = s.word a

/-! ## Arithmetic -/

/-- AMR stores the sum and SMR the difference modulo 65536, and both write the whole CC from the exact signed result:
overflow above 32767, underflow below -32768, else nothing (R180 to R182; the CC values are decision D8). -/
def Obligations.MemoryArithmetic : Prop :=
  ∀ (s : State) (r : GReg) (ix : Option XReg) (ind : Bool) (addr : Nat) (m : Word),
    s.Coherent → s.CanResolve ix ind addr → s.ea ix ind addr < s.cap → m = s.word (s.ea ix ind addr) →
    ∀ (i : Instr) (v : Word) (x : Int),
      (i, v, x) ∈ [(Instr.amr r ix ind addr, s.r.get r + m, (s.r.get r).toInt + m.toInt),
                   (Instr.smr r ix ind addr, s.r.get r - m, (s.r.get r).toInt - m.toInt)] →
      ∃ t, exec i s = .next t ∧ s.r.IsUpdate t.r r v ∧
        (t.cc = 8 ↔ 32767 < x) ∧ (t.cc = 4 ↔ x < -32768) ∧ (t.cc = 8 ∨ t.cc = 4 ∨ t.cc = 0) ∧
        t = ({ (s.afterResolve ix ind addr).afterRead (s.ea ix ind addr) with
                r := t.r, cc := t.cc, pc := s.pc + 1 } : State).completed

/-- AIR and SIR store the sum or difference with the immediate modulo 65536; AIR leaves `CC_OVERFLOW` or nothing, SIR
`CC_UNDERFLOW` or nothing (R180, R183, R184; the immediate is zero-extended, decision D7). -/
def Obligations.ImmediateArithmetic : Prop :=
  ∀ (s : State) (r : GReg) (imm : Nat),
    (∃ t, exec (.air r imm) s = .next t ∧
      s.r.IsUpdate t.r r (s.r.get r + BitVec.ofNat 16 imm) ∧
      t = ({ s with r := t.r, cc := if 32767 < (s.r.get r).toInt + imm then 8 else 0, pc := s.pc + 1 } : State).completed) ∧
    (∃ t, exec (.sir r imm) s = .next t ∧
      s.r.IsUpdate t.r r (s.r.get r - BitVec.ofNat 16 imm) ∧
      t = ({ s with r := t.r, cc := if (s.r.get r).toInt - imm < -32768 then 4 else 0, pc := s.pc + 1 } : State).completed)

/-! ## Transfer of control -/

/-- JZ, JNE, JCC and JGE go to the truncated effective address when their condition holds and to the next word when it
does not; the indirect fetch is made either way (R200 to R203, R208; the CC values JCC compares are decision D8). -/
def Obligations.ConditionalJumps : Prop :=
  ∀ (s : State) (ix : Option XReg) (ind : Bool) (addr : Nat) (there next : State),
    s.Coherent → s.CanResolve ix ind addr →
    there = ({ s.afterResolve ix ind addr with pc := BitVec.ofNat 16 (s.ea ix ind addr) } : State).completed →
    next = ({ s.afterResolve ix ind addr with pc := s.pc + 1 } : State).completed →
    (∀ r, exec (.jz r ix ind addr) s = .next (if s.r.get r = 0 then there else next)) ∧
    (∀ r, exec (.jne r ix ind addr) s = .next (if s.r.get r = 0 then next else there)) ∧
    (∀ r, exec (.jge r ix ind addr) s = .next (if (s.r.get r).getLsbD 15 then next else there)) ∧
    (∀ (c : Cond) (flag : BitVec 4),
      (c, flag) ∈ [(Cond.overflow, 8#4), (Cond.underflow, 4#4), (Cond.divZero, 2#4), (Cond.equal, 1#4)] →
      exec (.jcc c ix ind addr) s = .next (if s.cc = flag then there else next))

/-- JMA goes to the truncated effective address, unconditionally; JSR does so too and leaves PC + 1 in `R[3]` (R204,
R205). -/
def Obligations.JumpsAndLinks : Prop :=
  ∀ (s : State) (ix : Option XReg) (ind : Bool) (addr : Nat), s.Coherent → s.CanResolve ix ind addr →
    exec (.jma ix ind addr) s =
      .next ({ s.afterResolve ix ind addr with pc := BitVec.ofNat 16 (s.ea ix ind addr) } : State).completed ∧
    ∃ t, exec (.jsr ix ind addr) s = .next t ∧ s.r.IsUpdate t.r .r3 (s.pc + 1) ∧
      t = ({ s.afterResolve ix ind addr with r := t.r, pc := BitVec.ofNat 16 (s.ea ix ind addr) } : State).completed

/-- RFS leaves its immediate in `R[0]` and goes to the address in `R[3]`; after a JSR whose `R[3]` is kept, that is the
word after the JSR (R205, R206, R209). -/
def Obligations.RfsReturns : Prop :=
  (∀ (s : State) (imm : Nat), ∃ t, exec (.rfs imm) s = .next t ∧ s.r.IsUpdate t.r .r0 (BitVec.ofNat 16 imm) ∧
    t = ({ s with r := t.r, pc := s.r.get .r3 } : State).completed) ∧
  (∀ (s t u : State) (ix : Option XReg) (ind : Bool) (addr imm : Nat), s.Coherent → s.CanResolve ix ind addr →
    exec (.jsr ix ind addr) s = .next t → u.r.get .r3 = t.r.get .r3 →
    ∃ v, exec (.rfs imm) u = .next v ∧ v.pc = s.pc + 1)

/-- SOB decrements its register whether or not it branches, and branches when the signed reading of the decremented word
is above 0; CC is unchanged (R207, decision D15). -/
def Obligations.SobDecrementsAndBranches : Prop :=
  ∀ (s : State) (r : GReg) (ix : Option XReg) (ind : Bool) (addr : Nat), s.Coherent → s.CanResolve ix ind addr →
    ∃ t, exec (.sob r ix ind addr) s = .next t ∧ s.r.IsUpdate t.r r (s.r.get r - 1) ∧
      t = ({ s.afterResolve ix ind addr with
              r := t.r
              pc := if 0 < (s.r.get r - 1).toInt then BitVec.ofNat 16 (s.ea ix ind addr) else s.pc + 1 } : State).completed

/-! ## Register to register -/

/-- MLT: the pair `R[rx]`, `R[rx + 1]` holds the exact signed product as a 32-bit number, high half first, and CC is
cleared; for `rx = 3` the low half is discarded and only `R[3]` changes (R221, R227; decision D14 for `rx = 3`). -/
def Obligations.MltSplitsExactProduct : Prop :=
  ∀ (s : State) (rx ry : GReg), ∃ t, exec (.mlt rx ry) s = .next t ∧
    t = ({ s with r := t.r, cc := 0, pc := s.pc + 1 } : State).completed ∧
    (∀ rz, pairRegister rx = some rz →
      (t.r.get rx ++ t.r.get rz : BitVec 32).toInt = (s.r.get rx).toInt * (s.r.get ry).toInt ∧
      ∀ g, g ≠ rx → g ≠ rz → t.r.get g = s.r.get g) ∧
    (pairRegister rx = none →
      (∃ low : Word, (t.r.get rx ++ low : BitVec 32).toInt = (s.r.get rx).toInt * (s.r.get ry).toInt) ∧
      ∀ g, g ≠ rx → t.r.get g = s.r.get g)

/-- DVD by a non-zero divisor: quotient and remainder of the signed words, the quotient rounded toward zero, which the
three conditions on the remainder fix; stored truncated, so that -32768 / -1 stores 0x8000 (R222, R227, R228; the
dividend and the rounding are decision D13, `rx = 3` is D14). -/
def Obligations.DvdQuotientAndRemainder : Prop :=
  ∀ (s : State) (rx ry : GReg), s.r.get ry ≠ 0 → ∃ (t : State) (q m : Int), exec (.dvd rx ry) s = .next t ∧
    t = ({ s with r := t.r, cc := 0, pc := s.pc + 1 } : State).completed ∧
    (s.r.get rx).toInt = q * (s.r.get ry).toInt + m ∧ |m| < |(s.r.get ry).toInt| ∧
    (m = 0 ∨ m.sign = (s.r.get rx).toInt.sign) ∧
    t.r.get rx = BitVec.ofInt 16 q ∧
    (∀ rz, pairRegister rx = some rz → t.r.get rz = BitVec.ofInt 16 m) ∧
    ∀ g, g ≠ rx → pairRegister rx ≠ some g → t.r.get g = s.r.get g

/-- DVD by zero changes no register, sets `CC_DIVZERO` and goes on: no fault (R222, R277). -/
def Obligations.DvdByZeroSetsFlag : Prop :=
  ∀ (s : State) (rx ry : GReg), s.r.get ry = 0 →
    exec (.dvd rx ry) s = .next ({ s with cc := 2, pc := s.pc + 1 } : State).completed

/-- TRR sets the equal flag when the two words are equal and clears CC when they are not; no register changes (R223). -/
def Obligations.TrrComparesWords : Prop :=
  ∀ (s : State) (rx ry : GReg), ∃ t, exec (.trr rx ry) s = .next t ∧
    t = ({ s with cc := t.cc, pc := s.pc + 1 } : State).completed ∧
    (t.cc = 1 ↔ ∀ k, k < 16 → (s.r.get rx).getLsbD k = (s.r.get ry).getLsbD k) ∧ (t.cc = 1 ∨ t.cc = 0)

/-- AND, ORR and NOT work on each of the 16 bits; CC is unchanged (R224 to R226; CC by decision D12). -/
def Obligations.LogicWorksBitByBit : Prop :=
  ∀ (s : State) (rx ry : GReg),
    (∃ t v, exec (.and rx ry) s = .next t ∧ s.r.IsUpdate t.r rx v ∧
      t = ({ s with r := t.r, pc := s.pc + 1 } : State).completed ∧
      ∀ k, k < 16 → v.getLsbD k = ((s.r.get rx).getLsbD k && (s.r.get ry).getLsbD k)) ∧
    (∃ t v, exec (.orr rx ry) s = .next t ∧ s.r.IsUpdate t.r rx v ∧
      t = ({ s with r := t.r, pc := s.pc + 1 } : State).completed ∧
      ∀ k, k < 16 → v.getLsbD k = ((s.r.get rx).getLsbD k || (s.r.get ry).getLsbD k)) ∧
    (∃ t v, exec (.not rx) s = .next t ∧ s.r.IsUpdate t.r rx v ∧
      t = ({ s with r := t.r, pc := s.pc + 1 } : State).completed ∧
      ∀ k, k < 16 → v.getLsbD k = !(s.r.get rx).getLsbD k)

/-! ## Shift and rotate -/

/-- SRC: bit by bit, a right shift copies the sign bit into the vacated places and a left shift brings in zeros, for any
count, 16 to 31 included; CC is unchanged (R240, R241; decisions D10 to D12). -/
def Obligations.SrcShiftsBits : Prop :=
  ∀ (s : State) (r : GReg) (dir : Direction) (n : Nat), ∃ t v, exec (.src r dir n) s = .next t ∧
    s.r.IsUpdate t.r r v ∧ t = ({ s with r := t.r, pc := s.pc + 1 } : State).completed ∧
    (dir = .right → ∀ k, k < 16 →
      v.getLsbD k = if k + n < 16 then (s.r.get r).getLsbD (k + n) else (s.r.get r).getLsbD 15) ∧
    (dir = .left → ∀ k, k < 16 → v.getLsbD k = (decide (n ≤ k) && (s.r.get r).getLsbD (k - n)))

/-- RRC: bit by bit, a left rotation by `n` moves bit `k` to `(k + n) mod 16` and a right rotation moves bit
`(k + n) mod 16` to `k`; so the count acts modulo 16; CC is unchanged (R240, R242; decisions D10, D12). -/
def Obligations.RrcRotatesBits : Prop :=
  ∀ (s : State) (r : GReg) (dir : Direction) (n : Nat), ∃ t v, exec (.rrc r dir n) s = .next t ∧
    s.r.IsUpdate t.r r v ∧ t = ({ s with r := t.r, pc := s.pc + 1 } : State).completed ∧
    (dir = .left → ∀ k, k < 16 → v.getLsbD ((k + n) % 16) = (s.r.get r).getLsbD k) ∧
    (dir = .right → ∀ k, k < 16 → v.getLsbD k = (s.r.get r).getLsbD ((k + n) % 16))

/-! ## Trap, input, output, halt -/

/-- TRAP with a code up to 8 saves PC + 1 in word 2 and continues at `M[0] + code`: word 2 alone changes in memory (R251,
R282). -/
def Obligations.TrapVectorsThroughWordZero : Prop :=
  ∀ (s : State) (code : Nat), s.Coherent → code ≤ 8 → ∃ t, exec (.trap code) s = .next t ∧
    t = ({ (s.afterWrite 2 (s.pc + 1)).afterRead 0 with pc := BitVec.ofNat 16 ((s.word 0).toNat + code) } : State).completed ∧
    t.mbr = s.word 0 ∧ t.word 2 = s.pc + 1 ∧ ∀ a, a ≠ 2 → t.word a = s.word a

/-- TRAP with a code above 8 still saves PC + 1 in word 2, then dispatches fault 1 with PC already 0, so that word 4 gets
1 (R251, R274; the order is decision D21). -/
def Obligations.InvalidTrapCodeFaults : Prop :=
  ∀ (s : State) (code : Nat), 8 < code → ∃ t, exec (.trap code) s = .next t ∧
    t = ({ (s.afterWrite 2 (s.pc + 1)).afterWrite 4 1 with pc := 1, mfr := 2 } : State).completed ∧
    t.word 2 = s.pc + 1 ∧ t.word 4 = 1 ∧ ∀ a, a ≠ 2 → a ≠ 4 → t.word a = s.word a

/-- IN takes the front word of a queue that holds one and PC advances; on an empty queue it blocks: engine state
AwaitingInput, `WAIT` blocked-waiting, PC and everything else unchanged (R252; the ignored device id is decision D17). -/
def Obligations.InputTakesFrontOrBlocks : Prop :=
  ∀ (s : State) (r : GReg),
    (∀ (w : Word) (rest : List Word), s.inq = w :: rest → ∃ t, exec (.input r) s = .next t ∧
      s.r.IsUpdate t.r r w ∧ t = ({ s with r := t.r, inq := rest, pc := s.pc + 1 } : State).completed) ∧
    (s.inq = [] → exec (.input r) s =
      .next { s with engine := .awaitingInput, wait := .blockedWaiting, outcome := .await })

/-- OUT appends one event to the output stream, a character for `DEVID_CHAR` and a number for `DEVID_NUM`, and none for
any other id, which is the spec's decision D17 (log 1); no register changes (R253, R255, R256). The two ids are open
parameters: this holds for every distinct pair in 0 to 31 (log 7). -/
def Obligations.OutputEmitsEvent : Prop :=
  Config.devidChar ≠ Config.devidNum ∧ Config.devidChar < 32 ∧ Config.devidNum < 32 ∧
  ∀ (s : State) (r : GReg) (dev : Nat), ∃ t, exec (.output r dev) s = .next t ∧
    t = ({ s with outs := t.outs, pc := s.pc + 1 } : State).completed ∧
    (dev = Config.devidChar → ∃ b : Byte, b.toNat = (s.r.get r).toNat % 256 ∧ t.outs = s.outs ++ [.outChar b]) ∧
    (dev = Config.devidNum → t.outs = s.outs ++ [.outNum (s.r.get r).toInt]) ∧
    (dev ≠ Config.devidChar → dev ≠ Config.devidNum → t.outs = s.outs)

/-- HLT halts and changes nothing else, so a step from the state it leaves halts again in the same state (R145, R138). -/
def Obligations.HltHaltsAndStays : Prop :=
  (∀ s : State, exec .hlt s = .next { s with engine := .halted, outcome := .halt }) ∧
  ∀ s t : State, s.Coherent → s.pc.toNat < s.cap → s.word s.pc.toNat &&& 0xFC00 = 0 → step s = .next t →
    t.engine = .halted ∧ t.pc = s.pc ∧ step t = .next t

/-! ## Faults, stalls, returns -/

/-- The dispatch of a machine fault (R272): PC + 1 goes to word 4 through the cached write path, no protection applies and
it cannot stall, MAR is 4 and MBR the saved address, PC is 1, MFR is `2^kind`, outcome `Next`, engine state Ready; the
registers, CC and IR are unchanged, and so is every other word. -/
def Obligations.FaultDispatchSavesAndVectors : Prop :=
  ∀ (s : State) (kind : FaultKind), ∃ t, raiseFault kind s = .next t ∧
    t = { s with
            mem := t.mem
            cache := s.cache.afterWrite 4 (s.pc + 1)
            mar := 4
            mbr := s.pc + 1
            pc := 1
            mfr := BitVec.ofNat 4 (2 ^ kind.number)
            engine := .ready
            outcome := .next } ∧
    t.word 4 = s.pc + 1 ∧ ∀ a, a ≠ 4 → t.word a = s.word a

/-- An operand access at or above CAP stalls LDR, AMR, SMR, LDX, STR and STX: MAR shows the address, MBR the word for a
store, and no register, CC, PC or memory word changes (R161, R162, R164, R166, R181, R182, R278, R279 case c). The address
of LDX and STX is not indexed by default, the spec's decision D5, and is with `LDX_STX_INDEXED` (R141; DESIGN CHOICE of
the default, log 8). -/
def Obligations.OutOfRangeOperandStalls : Prop :=
  ∀ (s : State) (r : GReg) (ix m : Option XReg) (ind : Bool) (addr : Nat) (i : Instr), s.Coherent →
    m = (if s.readings.ldxStxIndexed then ix else none) →
    (s.CanResolve ix ind addr → s.cap ≤ s.ea ix ind addr →
      (i ∈ [Instr.ldr r ix ind addr, .amr r ix ind addr, .smr r ix ind addr] →
        exec i s = .next ({ s.afterResolve ix ind addr with mar := BitVec.ofNat 16 (s.ea ix ind addr) } : State).stalledAt) ∧
      exec (.str r ix ind addr) s =
        .next ({ s.afterResolve ix ind addr with
                  mar := BitVec.ofNat 16 (s.ea ix ind addr), mbr := s.r.get r } : State).stalledAt) ∧
    (s.CanResolve m ind addr → s.cap ≤ s.ea m ind addr →
      exec (.ldx ix ind addr) s =
        .next ({ s.afterResolve m ind addr with mar := BitVec.ofNat 16 (s.ea m ind addr) } : State).stalledAt ∧
      ∀ j, ix = some j → exec (.stx ix ind addr) s =
        .next ({ s.afterResolve m ind addr with
                  mar := BitVec.ofNat 16 (s.ea m ind addr), mbr := s.x.get j } : State).stalledAt)

/-- An indirect fetch at or above CAP stalls every memory-reference instruction before it does anything: MAR shows the
pointer's address and nothing else changes (R142, R200, R279 case b). The pointer of LDX and STX is indexed only with
`LDX_STX_INDEXED` (R141, decision D5, log 8). -/
def Obligations.OutOfRangeIndirectStalls : Prop :=
  ∀ (s : State) (r : GReg) (c : Cond) (ix m : Option XReg) (addr : Nat) (i : Instr), s.Coherent →
    m = (if s.readings.ldxStxIndexed then ix else none) →
    (s.cap ≤ baseAddress ix addr s →
      i ∈ [Instr.ldr r ix true addr, .str r ix true addr, .lda r ix true addr, .amr r ix true addr, .smr r ix true addr,
           .jz r ix true addr, .jne r ix true addr, .jcc c ix true addr, .jma ix true addr, .jsr ix true addr,
           .sob r ix true addr, .jge r ix true addr] →
      exec i s = .next ({ s with mar := BitVec.ofNat 16 (baseAddress ix addr s) } : State).stalledAt) ∧
    (s.cap ≤ baseAddress m addr s → i ∈ [Instr.ldx ix true addr, .stx ix true addr] →
      exec i s = .next ({ s with mar := BitVec.ofNat 16 (baseAddress m addr s) } : State).stalledAt)

/-- A stall repeats: from the state a stalled step leaves, the next step stalls again and changes nothing but, when PC is
in range, the cache, by its own read of PC: a line for PC is inserted if the stalled step's indirect read had put it out
(R70, R279, R331). -/
def Obligations.StallRepeats : Prop :=
  ∀ s t : State, s.Coherent → step s = .next t → t.outcome = .stall →
    t.Coherent ∧
    step t = .next { t with
      cache := if t.pc.toNat < t.cap then t.cache.afterRead t.pc.toNat (t.word t.pc.toNat) else t.cache }

/-- The return idioms: after a TRAP or a fault, in any coherent state whose return slot is untouched, `JMA 0,2,I` or
`JMA 0,4,I` goes to the word after the instruction that trapped or faulted (R284, R285, which the spec derives). -/
def Obligations.IndirectJumpReturns : Prop :=
  (∀ (s t u : State) (code : Nat), s.Coherent → code ≤ 8 → exec (.trap code) s = .next t →
    u.Coherent → u.word 2 = t.word 2 → ∃ v, exec (.jma none true 2) u = .next v ∧ v.pc = s.pc + 1) ∧
  (∀ (s t u : State) (kind : FaultKind), raiseFault kind s = .next t →
    u.Coherent → u.word 4 = t.word 4 → ∃ v, exec (.jma none true 4) u = .next v ∧ v.pc = s.pc + 1)

/-! ## The Word Store and the cache -/

/-- `StoreRead` and `StoreWrite` (R64, R65): in range the word is returned, or written with every other word unchanged;
out of range both answer OutOfRange. -/
def Obligations.StoreReadAndWrite : Prop :=
  ∀ (s : State) (a : Nat) (v : Word),
    (a < s.cap → storeRead s a = some (s.word a) ∧
      ∃ m, storeWrite s a v = some m ∧ m.readWord a = v ∧ ∀ b, b ≠ a → m.readWord b = s.word b) ∧
    (s.cap ≤ a → storeRead s a = none ∧ storeWrite s a v = none)

/-- `CachedRead` and `Insert` (R69, R70): a line for the address answers with its word, whatever the store holds, and
nothing changes; with no line the store answers, and the new line goes to the head, a full cache losing its last line. -/
def Obligations.CachedReadHitsOrInserts : Prop :=
  ∀ (s : State) (a : Nat), (s.cache.map CacheLine.addr).Nodup → s.cache.length ≤ 16 →
    (∀ l ∈ s.cache, l.addr = a → cachedRead s a = some (l.word, s)) ∧
    ((∀ l ∈ s.cache, l.addr ≠ a) →
      (a < s.cap → cachedRead s a = some (s.word a, { s with cache := ⟨a, s.word a⟩ :: s.cache.take 15 })) ∧
      (s.cap ≤ a → cachedRead s a = none))

/-- `CachedWrite` (R72): out of range nothing changes; otherwise the store is written and the line for the address gets
the word in its place, or a new line goes to the head, a full cache losing its last line. -/
def Obligations.CachedWriteGoesThrough : Prop :=
  ∀ (s : State) (a : Nat) (v : Word), s.cache.length ≤ 16 →
    (s.cap ≤ a → cachedWrite s a v = none) ∧
    (a < s.cap → ∃ t, cachedWrite s a v = some t ∧ t = { s with mem := t.mem, cache := t.cache } ∧
      t.word a = v ∧ (∀ b, b ≠ a → t.word b = s.word b) ∧
      ((∃ l ∈ s.cache, l.addr = a) →
        t.cache.map CacheLine.addr = s.cache.map CacheLine.addr ∧ (∀ l ∈ t.cache, l.addr = a → l.word = v) ∧
        ∀ l, l.addr ≠ a → (l ∈ t.cache ↔ l ∈ s.cache)) ∧
      ((∀ l ∈ s.cache, l.addr ≠ a) → t.cache = ⟨a, v⟩ :: s.cache.take 15))

/-- Eviction is in order of insertion only (R69, R71): inserting a list of lines leaves the 16 newest of them and the
old ones, newest first, so a line is gone after the 16th insertion that follows its own. -/
def Obligations.CacheEvictsInInsertionOrder : Prop :=
  ∀ (c : Cache) (new : List CacheLine), c.length ≤ 16 →
    new.foldl (fun d l => d.insert l.addr l.word) c = (new.reverse ++ c).take 16

/-- `Expand` (R66): the first call makes CAP 4096 with words 2048 to 4095 zero and every lower word unchanged, the cache
and all else untouched; a second call answers AlreadyExpanded and changes nothing. -/
def Obligations.ExpandDoublesOnce : Prop :=
  ∀ s : State,
    (s.expanded = true → expand s = (s, .alreadyExpanded)) ∧
    (s.expanded = false → ∃ t, expand s = (t, .ok) ∧ t = { s with mem := t.mem, expanded := true } ∧ t.cap = 4096 ∧
      (∀ a, 2048 ≤ a → a < 4096 → t.word a = 0) ∧ ∀ a, a < 2048 → t.word a = s.word a)

/-- `StoreReset` (R67, R312): every word 0 but the first 32 if they are kept, CAP 2048, the cache empty (decision D24), no
register or interface state touched. -/
def Obligations.StoreResetZeroesWords : Prop :=
  ∀ (s : State) (keep : Bool), ∃ t, storeReset keep s = t ∧
    t = { s with mem := t.mem, expanded := false, cache := [] } ∧ t.cap = 2048 ∧ t.Coherent ∧
    ∀ a, t.word a = if keep = true ∧ a < 32 then s.word a else 0

/-- The raw store (R87) writes the store and not the cache, MAR or MBR, protected words included; and if the cache held a
line for the address, the engine goes on reading the line's old word (R330, which the spec derives). -/
def Obligations.RawStoreBypassesCache : Prop :=
  ∀ (s : State) (a : Nat) (v : Word),
    (s.cap ≤ a → rawStore a v s = (s, .outOfRange)) ∧
    (a < s.cap → ∃ t, rawStore a v s = (t, .ok) ∧ t = { s with mem := t.mem } ∧ t.word a = v ∧
      (∀ b, b ≠ a → t.word b = s.word b) ∧
      (s.Coherent → ∀ l ∈ s.cache, l.addr = a → cachedRead t a = some (s.word a, t)))

/-! ## Other host operations -/

/-- The register slots (R44, R45, R320; decision D25): the 13 slots are, in order, `R[0]` to `R[3]`, `X[1]` to `X[3]`, PC,
IR, CC, MAR, MBR and MFR; what is written to one reads back truncated to its width, every other slot is unchanged, and so
is everything that is no register; any other number reads as `INVALID` and writes nothing. -/
def Obligations.RegisterSlotsReadBack : Prop :=
  ∀ s : State,
    (([0, 1, 2, 3, 4, 5, 6, 7, 8, 9, 10, 11, 12] : List Int).map fun n => getRegister n s) =
      [s.r.get .r0, s.r.get .r1, s.r.get .r2, s.r.get .r3, s.x.get .x1, s.x.get .x2, s.x.get .x3, s.pc, s.ir,
        s.cc.setWidth 16, s.mar, s.mbr, s.mfr.setWidth 16].map some ∧
    ∀ n v : Int,
      (0 ≤ n ∧ n ≤ 12 → ∃ t, setRegister n v s = t ∧
        getRegister n t = some (if n = 9 ∨ n = 12 then (BitVec.ofInt 4 v).setWidth 16 else BitVec.ofInt 16 v) ∧
        (∀ k, k ≠ n → getRegister k t = getRegister k s) ∧
        t = { s with
                r := t.r, x := t.x, pc := t.pc, ir := t.ir, cc := t.cc, mar := t.mar, mbr := t.mbr, mfr := t.mfr }) ∧
      (¬ (0 ≤ n ∧ n ≤ 12) → getRegister n s = none ∧ setRegister n v s = s)

/-- `supplyInput` (R325; decision D29): not waiting, it replaces the queue, sets has-input and makes no step; waiting, it
also sets Ready and re-enters the run loop, where the blocked IN at PC takes the first word supplied, or, if there is
none, blocks again at once and the loop returns. -/
def Obligations.SupplyInputResumesBlockedInput : Prop :=
  ∀ (s : State) (fuel : Nat) (words : List Int),
    (s.engine ≠ .awaitingInput → supplyInput fuel words s =
      .next (.returned { s with inq := words.map (BitVec.ofInt 16), wait := .hasInput })) ∧
    (∀ r : GReg, s.engine = .awaitingInput → s.Coherent → s.pc.toNat < s.cap →
      decode s.readings.lrBit (s.word s.pc.toNat) = .ok (.input r) →
      (∀ (v : Int) (rest : List Int), words = v :: rest →
        ∃ t, supplyInput (fuel + 1) words s = run fuel t ∧ s.r.IsUpdate t.r r (BitVec.ofInt 16 v) ∧
          t = ({ s.fetched with
                  r := t.r, inq := rest.map (BitVec.ofInt 16), wait := .hasInput, pc := s.pc + 1 } : State).completed) ∧
      (words = [] → supplyInput (fuel + 1) words s = .next (.returned
        { s.fetched with inq := [], wait := .blockedWaiting, engine := .awaitingInput, outcome := .await })))

/-- `run` returns only after a step that left a halt opcode in IR or the engine waiting for input; after a stall whose IR
is no HLT it never returns; from reset it halts at once with PC 0 (R136, R279, R311, R323; decisions D22, D23). That PC is
0 at reset, which the last clause rests on, is decision D19 (DESIGN CHOICE, log 6). -/
def Obligations.RunReturnsOnlyAtHaltOrInput : Prop :=
  (∀ (fuel : Nat) (s t : State), run fuel s = .next (.returned t) →
    t.ir.toNat / 1024 = 0 ∨ t.engine = .awaitingInput) ∧
  (∀ s t : State, s.Coherent → step s = .next t → t.outcome = .stall → t.ir.toNat / 1024 ≠ 0 →
    ∀ fuel, ∃ u, run fuel t = .next (.stillRunning u)) ∧
  ∀ fuel, ∃ t, run (fuel + 1) State.reset = .next (.returned t) ∧ t.engine = .halted ∧ t.pc = 0

/-- Loading makes the machine coherent: after a store reset and any list of raw stores the cache is empty, the
registers are untouched, and a word the image lists last for its address is in the store (R315, R327, R330). -/
def Obligations.LoadingMakesCoherent : Prop :=
  ∀ (s : State) (keep : Bool) (image : List (Nat × Word)), ∃ t, loadImage keep image s = t ∧
    t = { s with mem := t.mem, expanded := false, cache := [] } ∧ t.Coherent ∧
    ∀ (front back : List (Nat × Word)) (a : Nat) (w : Word), image = front ++ (a, w) :: back → a < 2048 →
      (∀ p ∈ back, p.1 ≠ a) → t.word a = w

/-! ## Reset -/

/-- Reset leaves what the source states (R46, R310): every word 0, CAP 2048, not expanded, engine state Ready, `WAIT` idle.
The zero registers, empty queues and empty cache are the spec's decisions D19 and D24 (log 6). -/
def Obligations.ResetLeavesSpecValues : Prop :=
  (∀ a, State.reset.word a = 0) ∧ State.reset.cap = 2048 ∧ State.reset.expanded = false ∧
  State.reset.engine = .ready ∧ State.reset.wait = .idle ∧ State.reset.cache = [] ∧ State.reset.inq = [] ∧
  State.reset.outs = [] ∧ (∀ g, State.reset.r.get g = 0) ∧ (∀ j, State.reset.x.get j = 0) ∧ State.reset.pc = 0 ∧
  State.reset.ir = 0 ∧ State.reset.cc = 0 ∧ State.reset.mar = 0 ∧ State.reset.mbr = 0 ∧ State.reset.mfr = 0

/-- The reset state meets every invariant stated below (R46, R74). That CC and MFR are 0 and the cache empty at reset are
the spec's decisions D19 and D24 (DESIGN CHOICE, log 6); the store's canonical form is the model's (log 2). -/
def Obligations.ResetMeetsInvariants : Prop :=
  State.reset.MemoryInvariant ∧ State.reset.CCLegal ∧ State.reset.MFRLegal ∧ State.reset.WaitAgrees

/-! ## Invariants and whole-machine rules -/

/-- Every step keeps the memory side in order: coherence, at most 16 lines, the store's canonical form and bound (R68,
R74, R41; the canonical form is the model's, log 2). -/
def Obligations.StepKeepsMemoryInvariant : Prop :=
  ∀ s t : State, s.MemoryInvariant → step s = .next t → t.MemoryInvariant

/-- So does an injected instruction, and so does every other host call; a raw store does when the cache holds no line for
its address, which is the host's duty (R74, R86, R330). No call changes the two readings of R9 (the model's, log 8). -/
def Obligations.HostCallsKeepMemoryInvariant : Prop :=
  ∀ (c : HostCall) (s t : State), c.DutyKept s → s.MemoryInvariant → hostCall c s = .next t →
    t.MemoryInvariant ∧ t.readings = s.readings

/-- Every step keeps CC none or one-hot, MFR none or one of the three kinds the core raises, never 8, and the wait flag
at blocked-waiting while the engine waits (R30, R34, R276, R39). -/
def Obligations.StepKeepsFlagsLegal : Prop :=
  ∀ s t : State, s.CCLegal → s.MFRLegal → s.WaitAgrees → step s = .next t →
    t.CCLegal ∧ t.MFRLegal ∧ t.WaitAgrees

/-- No step changes a word of the reserved region but the two return slots, words 2 and 4: the protection holds for every
instruction and every fault (R79, R80, R286). -/
def Obligations.StepKeepsReservedWords : Prop :=
  ∀ (s t : State) (a : Nat), step s = .next t → a ≤ 27 → a ≠ 2 → a ≠ 4 → t.word a = s.word a

/-- A step never changes the capacity, only appends to the output stream, takes input only from the front, one word at
most, and leaves IR with the fetched word or as it was (R24, R40, R38, R66); nor does it change the two readings of R9
(the model's, log 8). -/
def Obligations.StepKeepsInterfaceState : Prop :=
  ∀ s t : State, s.Coherent → step s = .next t →
    t.expanded = s.expanded ∧ (∃ e, t.outs = s.outs ++ e ∧ e.length ≤ 1) ∧
    (t.inq = s.inq ∨ ∃ w, s.inq = w :: t.inq) ∧ (t.ir = s.word s.pc.toNat ∨ (t.ir = s.ir ∧ t.outcome = .stall)) ∧
    t.readings = s.readings

/-- Which instructions write CC (R32, decision D12), the index registers (R22), MFR (R34, R273, R274) and the Word Store
(R76, R77), the input queue and the wait flag (R38, R39), the output stream (R40) and the general registers (the rules of
the instructions, R107): no other leaves them changed. -/
def Obligations.OnlyNamedInstructionsWrite : Prop :=
  ∀ (i : Instr) (s t : State), exec i s = .next t →
    (i.opcode ∉ [4, 5, 6, 7, 16, 17, 18] → t.cc = s.cc) ∧
    (i.opcode ≠ 33 → t.x = s.x) ∧
    (i.opcode ∉ [2, 30, 34] → t.mfr = s.mfr ∧ t.mem = s.mem) ∧
    (i.opcode ≠ 49 → t.inq = s.inq ∧ t.wait = s.wait) ∧
    (i.opcode ≠ 50 → t.outs = s.outs) ∧
    (i.opcode ∉ [1, 3, 4, 5, 6, 7, 12, 13, 14, 16, 17, 19, 20, 21, 25, 26, 49] → t.r = s.r)

/-- A store is seen by every later fetch of its address with no fence (R85, which the spec derives): after STR or STX has
stored a word, and any steps and host calls within the host's duty (R330) that leave that word as it is, a fetch at the
address gives the stored word, and the step runs the instruction it is. STX's address is indexed only with
`LDX_STX_INDEXED` (R141, decision D5, log 8). -/
def Obligations.StoreIsSeenByFetch : Prop :=
  ∀ (s s1 t u : State) (i : Instr) (ind : Bool) (addr ea : Nat) (v : Word), s.Coherent → 27 < ea → ea < s.cap →
    ((∃ r ix, i = .str r ix ind addr ∧ resolveEA ix ind addr s = .ok ea s1 ∧ v = s.r.get r) ∨
      (∃ j, i = .stx (some j) ind addr ∧ v = s.x.get j ∧
        resolveEA (if s.readings.ldxStxIndexed then some j else none) ind addr s = .ok ea s1)) →
    exec i s = .next t → ReachesKeepingWord ea t u → u.pc.toNat = ea → ea < u.cap →
    ∃ u1, fetch u = .ok v u1 ∧ ∀ k, decode u.readings.lrBit v = .ok k → step u = exec k u1
end

