-- ==== Sys2Proof/Laws/State.lean ====
section
/-! SUPPORT. What each named update of the state does to each field, one lemma a field, so that no proof unfolds a record
update. -/

namespace Sys2Proof.Machine

@[simp] theorem setR_r (i : GReg) (v : Word) (s : State) : (setR i v s).r = s.r.set i v := rfl
@[simp] theorem setR_x (i : GReg) (v : Word) (s : State) : (setR i v s).x = s.x := rfl
@[simp] theorem setR_pc (i : GReg) (v : Word) (s : State) : (setR i v s).pc = s.pc := rfl
@[simp] theorem setR_ir (i : GReg) (v : Word) (s : State) : (setR i v s).ir = s.ir := rfl
@[simp] theorem setR_cc (i : GReg) (v : Word) (s : State) : (setR i v s).cc = s.cc := rfl
@[simp] theorem setR_mar (i : GReg) (v : Word) (s : State) : (setR i v s).mar = s.mar := rfl
@[simp] theorem setR_mbr (i : GReg) (v : Word) (s : State) : (setR i v s).mbr = s.mbr := rfl
@[simp] theorem setR_mfr (i : GReg) (v : Word) (s : State) : (setR i v s).mfr = s.mfr := rfl
@[simp] theorem setR_engine (i : GReg) (v : Word) (s : State) : (setR i v s).engine = s.engine := rfl
@[simp] theorem setR_inq (i : GReg) (v : Word) (s : State) : (setR i v s).inq = s.inq := rfl
@[simp] theorem setR_wait (i : GReg) (v : Word) (s : State) : (setR i v s).wait = s.wait := rfl
@[simp] theorem setR_outs (i : GReg) (v : Word) (s : State) : (setR i v s).outs = s.outs := rfl
@[simp] theorem setR_mem (i : GReg) (v : Word) (s : State) : (setR i v s).mem = s.mem := rfl
@[simp] theorem setR_expanded (i : GReg) (v : Word) (s : State) : (setR i v s).expanded = s.expanded := rfl
@[simp] theorem setR_cache (i : GReg) (v : Word) (s : State) : (setR i v s).cache = s.cache := rfl
@[simp] theorem setR_outcome (i : GReg) (v : Word) (s : State) : (setR i v s).outcome = s.outcome := rfl
@[simp] theorem setR_readings (i : GReg) (v : Word) (s : State) : (setR i v s).readings = s.readings := rfl
@[simp] theorem setR_cap (i : GReg) (v : Word) (s : State) : (setR i v s).cap = s.cap := rfl
@[simp] theorem setR_word (i : GReg) (v : Word) (s : State) (b : Nat) : (setR i v s).word b = s.word b := rfl

@[simp] theorem setPair_r (i : GReg) (v w : Word) (s : State) : (setPair i v w s).r = (s.r.set i v).setNext i w := rfl
@[simp] theorem setPair_x (i : GReg) (v w : Word) (s : State) : (setPair i v w s).x = s.x := rfl
@[simp] theorem setPair_pc (i : GReg) (v w : Word) (s : State) : (setPair i v w s).pc = s.pc := rfl
@[simp] theorem setPair_ir (i : GReg) (v w : Word) (s : State) : (setPair i v w s).ir = s.ir := rfl
@[simp] theorem setPair_cc (i : GReg) (v w : Word) (s : State) : (setPair i v w s).cc = s.cc := rfl
@[simp] theorem setPair_mar (i : GReg) (v w : Word) (s : State) : (setPair i v w s).mar = s.mar := rfl
@[simp] theorem setPair_mbr (i : GReg) (v w : Word) (s : State) : (setPair i v w s).mbr = s.mbr := rfl
@[simp] theorem setPair_mfr (i : GReg) (v w : Word) (s : State) : (setPair i v w s).mfr = s.mfr := rfl
@[simp] theorem setPair_engine (i : GReg) (v w : Word) (s : State) : (setPair i v w s).engine = s.engine := rfl
@[simp] theorem setPair_inq (i : GReg) (v w : Word) (s : State) : (setPair i v w s).inq = s.inq := rfl
@[simp] theorem setPair_wait (i : GReg) (v w : Word) (s : State) : (setPair i v w s).wait = s.wait := rfl
@[simp] theorem setPair_outs (i : GReg) (v w : Word) (s : State) : (setPair i v w s).outs = s.outs := rfl
@[simp] theorem setPair_mem (i : GReg) (v w : Word) (s : State) : (setPair i v w s).mem = s.mem := rfl
@[simp] theorem setPair_expanded (i : GReg) (v w : Word) (s : State) : (setPair i v w s).expanded = s.expanded := rfl
@[simp] theorem setPair_cache (i : GReg) (v w : Word) (s : State) : (setPair i v w s).cache = s.cache := rfl
@[simp] theorem setPair_outcome (i : GReg) (v w : Word) (s : State) : (setPair i v w s).outcome = s.outcome := rfl
@[simp] theorem setPair_readings (i : GReg) (v w : Word) (s : State) : (setPair i v w s).readings = s.readings := rfl
@[simp] theorem setPair_cap (i : GReg) (v w : Word) (s : State) : (setPair i v w s).cap = s.cap := rfl
@[simp] theorem setPair_word (i : GReg) (v w : Word) (s : State) (b : Nat) : (setPair i v w s).word b = s.word b := rfl

@[simp] theorem setCC_r (c : BitVec 4) (s : State) : (setCC c s).r = s.r := rfl
@[simp] theorem setCC_x (c : BitVec 4) (s : State) : (setCC c s).x = s.x := rfl
@[simp] theorem setCC_pc (c : BitVec 4) (s : State) : (setCC c s).pc = s.pc := rfl
@[simp] theorem setCC_ir (c : BitVec 4) (s : State) : (setCC c s).ir = s.ir := rfl
@[simp] theorem setCC_cc (c : BitVec 4) (s : State) : (setCC c s).cc = c := rfl
@[simp] theorem setCC_mar (c : BitVec 4) (s : State) : (setCC c s).mar = s.mar := rfl
@[simp] theorem setCC_mbr (c : BitVec 4) (s : State) : (setCC c s).mbr = s.mbr := rfl
@[simp] theorem setCC_mfr (c : BitVec 4) (s : State) : (setCC c s).mfr = s.mfr := rfl
@[simp] theorem setCC_engine (c : BitVec 4) (s : State) : (setCC c s).engine = s.engine := rfl
@[simp] theorem setCC_inq (c : BitVec 4) (s : State) : (setCC c s).inq = s.inq := rfl
@[simp] theorem setCC_wait (c : BitVec 4) (s : State) : (setCC c s).wait = s.wait := rfl
@[simp] theorem setCC_outs (c : BitVec 4) (s : State) : (setCC c s).outs = s.outs := rfl
@[simp] theorem setCC_mem (c : BitVec 4) (s : State) : (setCC c s).mem = s.mem := rfl
@[simp] theorem setCC_expanded (c : BitVec 4) (s : State) : (setCC c s).expanded = s.expanded := rfl
@[simp] theorem setCC_cache (c : BitVec 4) (s : State) : (setCC c s).cache = s.cache := rfl
@[simp] theorem setCC_outcome (c : BitVec 4) (s : State) : (setCC c s).outcome = s.outcome := rfl
@[simp] theorem setCC_readings (c : BitVec 4) (s : State) : (setCC c s).readings = s.readings := rfl
@[simp] theorem setCC_cap (c : BitVec 4) (s : State) : (setCC c s).cap = s.cap := rfl
@[simp] theorem setCC_word (c : BitVec 4) (s : State) (b : Nat) : (setCC c s).word b = s.word b := rfl

@[simp] theorem advance_r (s : State) : (advance s).r = s.r := rfl
@[simp] theorem advance_x (s : State) : (advance s).x = s.x := rfl
@[simp] theorem advance_pc (s : State) : (advance s).pc = s.pc + 1 := rfl
@[simp] theorem advance_ir (s : State) : (advance s).ir = s.ir := rfl
@[simp] theorem advance_cc (s : State) : (advance s).cc = s.cc := rfl
@[simp] theorem advance_mar (s : State) : (advance s).mar = s.mar := rfl
@[simp] theorem advance_mbr (s : State) : (advance s).mbr = s.mbr := rfl
@[simp] theorem advance_mfr (s : State) : (advance s).mfr = s.mfr := rfl
@[simp] theorem advance_engine (s : State) : (advance s).engine = s.engine := rfl
@[simp] theorem advance_inq (s : State) : (advance s).inq = s.inq := rfl
@[simp] theorem advance_wait (s : State) : (advance s).wait = s.wait := rfl
@[simp] theorem advance_outs (s : State) : (advance s).outs = s.outs := rfl
@[simp] theorem advance_mem (s : State) : (advance s).mem = s.mem := rfl
@[simp] theorem advance_expanded (s : State) : (advance s).expanded = s.expanded := rfl
@[simp] theorem advance_cache (s : State) : (advance s).cache = s.cache := rfl
@[simp] theorem advance_outcome (s : State) : (advance s).outcome = s.outcome := rfl
@[simp] theorem advance_readings (s : State) : (advance s).readings = s.readings := rfl
@[simp] theorem advance_cap (s : State) : (advance s).cap = s.cap := rfl
@[simp] theorem advance_word (s : State) (b : Nat) : (advance s).word b = s.word b := rfl

@[simp] theorem jumpTo_r (a : Nat) (s : State) : (jumpTo a s).r = s.r := rfl
@[simp] theorem jumpTo_x (a : Nat) (s : State) : (jumpTo a s).x = s.x := rfl
@[simp] theorem jumpTo_pc (a : Nat) (s : State) : (jumpTo a s).pc = BitVec.ofNat 16 a := rfl
@[simp] theorem jumpTo_ir (a : Nat) (s : State) : (jumpTo a s).ir = s.ir := rfl
@[simp] theorem jumpTo_cc (a : Nat) (s : State) : (jumpTo a s).cc = s.cc := rfl
@[simp] theorem jumpTo_mar (a : Nat) (s : State) : (jumpTo a s).mar = s.mar := rfl
@[simp] theorem jumpTo_mbr (a : Nat) (s : State) : (jumpTo a s).mbr = s.mbr := rfl
@[simp] theorem jumpTo_mfr (a : Nat) (s : State) : (jumpTo a s).mfr = s.mfr := rfl
@[simp] theorem jumpTo_engine (a : Nat) (s : State) : (jumpTo a s).engine = s.engine := rfl
@[simp] theorem jumpTo_inq (a : Nat) (s : State) : (jumpTo a s).inq = s.inq := rfl
@[simp] theorem jumpTo_wait (a : Nat) (s : State) : (jumpTo a s).wait = s.wait := rfl
@[simp] theorem jumpTo_outs (a : Nat) (s : State) : (jumpTo a s).outs = s.outs := rfl
@[simp] theorem jumpTo_mem (a : Nat) (s : State) : (jumpTo a s).mem = s.mem := rfl
@[simp] theorem jumpTo_expanded (a : Nat) (s : State) : (jumpTo a s).expanded = s.expanded := rfl
@[simp] theorem jumpTo_cache (a : Nat) (s : State) : (jumpTo a s).cache = s.cache := rfl
@[simp] theorem jumpTo_outcome (a : Nat) (s : State) : (jumpTo a s).outcome = s.outcome := rfl
@[simp] theorem jumpTo_readings (a : Nat) (s : State) : (jumpTo a s).readings = s.readings := rfl
@[simp] theorem jumpTo_cap (a : Nat) (s : State) : (jumpTo a s).cap = s.cap := rfl
@[simp] theorem jumpTo_word (a : Nat) (s : State) (b : Nat) : (jumpTo a s).word b = s.word b := rfl

@[simp] theorem afterRead_r (a : Nat) (s : State) : (s.afterRead a).r = s.r := rfl
@[simp] theorem afterRead_x (a : Nat) (s : State) : (s.afterRead a).x = s.x := rfl
@[simp] theorem afterRead_pc (a : Nat) (s : State) : (s.afterRead a).pc = s.pc := rfl
@[simp] theorem afterRead_ir (a : Nat) (s : State) : (s.afterRead a).ir = s.ir := rfl
@[simp] theorem afterRead_cc (a : Nat) (s : State) : (s.afterRead a).cc = s.cc := rfl
@[simp] theorem afterRead_mar (a : Nat) (s : State) : (s.afterRead a).mar = BitVec.ofNat 16 a := rfl
@[simp] theorem afterRead_mbr (a : Nat) (s : State) : (s.afterRead a).mbr = s.word a := rfl
@[simp] theorem afterRead_mfr (a : Nat) (s : State) : (s.afterRead a).mfr = s.mfr := rfl
@[simp] theorem afterRead_engine (a : Nat) (s : State) : (s.afterRead a).engine = s.engine := rfl
@[simp] theorem afterRead_inq (a : Nat) (s : State) : (s.afterRead a).inq = s.inq := rfl
@[simp] theorem afterRead_wait (a : Nat) (s : State) : (s.afterRead a).wait = s.wait := rfl
@[simp] theorem afterRead_outs (a : Nat) (s : State) : (s.afterRead a).outs = s.outs := rfl
@[simp] theorem afterRead_mem (a : Nat) (s : State) : (s.afterRead a).mem = s.mem := rfl
@[simp] theorem afterRead_expanded (a : Nat) (s : State) : (s.afterRead a).expanded = s.expanded := rfl
@[simp] theorem afterRead_cache (a : Nat) (s : State) : (s.afterRead a).cache = s.cache.afterRead a (s.word a) := rfl
@[simp] theorem afterRead_outcome (a : Nat) (s : State) : (s.afterRead a).outcome = s.outcome := rfl
@[simp] theorem afterRead_readings (a : Nat) (s : State) : (s.afterRead a).readings = s.readings := rfl
@[simp] theorem afterRead_cap (a : Nat) (s : State) : (s.afterRead a).cap = s.cap := rfl
@[simp] theorem afterRead_word (a : Nat) (s : State) (b : Nat) : (s.afterRead a).word b = s.word b := rfl

@[simp] theorem afterWrite_r (a : Nat) (v : Word) (s : State) : (s.afterWrite a v).r = s.r := rfl
@[simp] theorem afterWrite_x (a : Nat) (v : Word) (s : State) : (s.afterWrite a v).x = s.x := rfl
@[simp] theorem afterWrite_pc (a : Nat) (v : Word) (s : State) : (s.afterWrite a v).pc = s.pc := rfl
@[simp] theorem afterWrite_ir (a : Nat) (v : Word) (s : State) : (s.afterWrite a v).ir = s.ir := rfl
@[simp] theorem afterWrite_cc (a : Nat) (v : Word) (s : State) : (s.afterWrite a v).cc = s.cc := rfl
@[simp] theorem afterWrite_mar (a : Nat) (v : Word) (s : State) : (s.afterWrite a v).mar = BitVec.ofNat 16 a := rfl
@[simp] theorem afterWrite_mbr (a : Nat) (v : Word) (s : State) : (s.afterWrite a v).mbr = v := rfl
@[simp] theorem afterWrite_mfr (a : Nat) (v : Word) (s : State) : (s.afterWrite a v).mfr = s.mfr := rfl
@[simp] theorem afterWrite_engine (a : Nat) (v : Word) (s : State) : (s.afterWrite a v).engine = s.engine := rfl
@[simp] theorem afterWrite_inq (a : Nat) (v : Word) (s : State) : (s.afterWrite a v).inq = s.inq := rfl
@[simp] theorem afterWrite_wait (a : Nat) (v : Word) (s : State) : (s.afterWrite a v).wait = s.wait := rfl
@[simp] theorem afterWrite_outs (a : Nat) (v : Word) (s : State) : (s.afterWrite a v).outs = s.outs := rfl
@[simp] theorem afterWrite_mem (a : Nat) (v : Word) (s : State) : (s.afterWrite a v).mem = s.mem.writeWord a v := rfl
@[simp] theorem afterWrite_expanded (a : Nat) (v : Word) (s : State) : (s.afterWrite a v).expanded = s.expanded := rfl
@[simp] theorem afterWrite_cache (a : Nat) (v : Word) (s : State) : (s.afterWrite a v).cache = s.cache.afterWrite a v := rfl
@[simp] theorem afterWrite_outcome (a : Nat) (v : Word) (s : State) : (s.afterWrite a v).outcome = s.outcome := rfl
@[simp] theorem afterWrite_readings (a : Nat) (v : Word) (s : State) : (s.afterWrite a v).readings = s.readings := rfl
@[simp] theorem afterWrite_cap (a : Nat) (v : Word) (s : State) : (s.afterWrite a v).cap = s.cap := rfl

@[simp] theorem completed_r (s : State) : (s.completed).r = s.r := rfl
@[simp] theorem completed_x (s : State) : (s.completed).x = s.x := rfl
@[simp] theorem completed_pc (s : State) : (s.completed).pc = s.pc := rfl
@[simp] theorem completed_ir (s : State) : (s.completed).ir = s.ir := rfl
@[simp] theorem completed_cc (s : State) : (s.completed).cc = s.cc := rfl
@[simp] theorem completed_mar (s : State) : (s.completed).mar = s.mar := rfl
@[simp] theorem completed_mbr (s : State) : (s.completed).mbr = s.mbr := rfl
@[simp] theorem completed_mfr (s : State) : (s.completed).mfr = s.mfr := rfl
@[simp] theorem completed_engine (s : State) : (s.completed).engine = .ready := rfl
@[simp] theorem completed_inq (s : State) : (s.completed).inq = s.inq := rfl
@[simp] theorem completed_wait (s : State) : (s.completed).wait = s.wait := rfl
@[simp] theorem completed_outs (s : State) : (s.completed).outs = s.outs := rfl
@[simp] theorem completed_mem (s : State) : (s.completed).mem = s.mem := rfl
@[simp] theorem completed_expanded (s : State) : (s.completed).expanded = s.expanded := rfl
@[simp] theorem completed_cache (s : State) : (s.completed).cache = s.cache := rfl
@[simp] theorem completed_outcome (s : State) : (s.completed).outcome = .next := rfl
@[simp] theorem completed_readings (s : State) : (s.completed).readings = s.readings := rfl
@[simp] theorem completed_cap (s : State) : (s.completed).cap = s.cap := rfl
@[simp] theorem completed_word (s : State) (b : Nat) : (s.completed).word b = s.word b := rfl

@[simp] theorem stalledAt_r (s : State) : (s.stalledAt).r = s.r := rfl
@[simp] theorem stalledAt_x (s : State) : (s.stalledAt).x = s.x := rfl
@[simp] theorem stalledAt_pc (s : State) : (s.stalledAt).pc = s.pc := rfl
@[simp] theorem stalledAt_ir (s : State) : (s.stalledAt).ir = s.ir := rfl
@[simp] theorem stalledAt_cc (s : State) : (s.stalledAt).cc = s.cc := rfl
@[simp] theorem stalledAt_mar (s : State) : (s.stalledAt).mar = s.mar := rfl
@[simp] theorem stalledAt_mbr (s : State) : (s.stalledAt).mbr = s.mbr := rfl
@[simp] theorem stalledAt_mfr (s : State) : (s.stalledAt).mfr = s.mfr := rfl
@[simp] theorem stalledAt_engine (s : State) : (s.stalledAt).engine = .ready := rfl
@[simp] theorem stalledAt_inq (s : State) : (s.stalledAt).inq = s.inq := rfl
@[simp] theorem stalledAt_wait (s : State) : (s.stalledAt).wait = s.wait := rfl
@[simp] theorem stalledAt_outs (s : State) : (s.stalledAt).outs = s.outs := rfl
@[simp] theorem stalledAt_mem (s : State) : (s.stalledAt).mem = s.mem := rfl
@[simp] theorem stalledAt_expanded (s : State) : (s.stalledAt).expanded = s.expanded := rfl
@[simp] theorem stalledAt_cache (s : State) : (s.stalledAt).cache = s.cache := rfl
@[simp] theorem stalledAt_outcome (s : State) : (s.stalledAt).outcome = .stall := rfl
@[simp] theorem stalledAt_readings (s : State) : (s.stalledAt).readings = s.readings := rfl
@[simp] theorem stalledAt_cap (s : State) : (s.stalledAt).cap = s.cap := rfl
@[simp] theorem stalledAt_word (s : State) (b : Nat) : (s.stalledAt).word b = s.word b := rfl

@[simp] theorem faulted_r (kind : FaultKind) (s : State) : (s.faulted kind).r = s.r := rfl
@[simp] theorem faulted_x (kind : FaultKind) (s : State) : (s.faulted kind).x = s.x := rfl
@[simp] theorem faulted_pc (kind : FaultKind) (s : State) : (s.faulted kind).pc = 1 := rfl
@[simp] theorem faulted_ir (kind : FaultKind) (s : State) : (s.faulted kind).ir = s.ir := rfl
@[simp] theorem faulted_cc (kind : FaultKind) (s : State) : (s.faulted kind).cc = s.cc := rfl
@[simp] theorem faulted_mar (kind : FaultKind) (s : State) : (s.faulted kind).mar = 4 := rfl
@[simp] theorem faulted_mbr (kind : FaultKind) (s : State) : (s.faulted kind).mbr = s.pc + 1 := rfl
@[simp] theorem faulted_mfr (kind : FaultKind) (s : State) : (s.faulted kind).mfr = oneHot kind.number := rfl
@[simp] theorem faulted_engine (kind : FaultKind) (s : State) : (s.faulted kind).engine = .ready := rfl
@[simp] theorem faulted_inq (kind : FaultKind) (s : State) : (s.faulted kind).inq = s.inq := rfl
@[simp] theorem faulted_wait (kind : FaultKind) (s : State) : (s.faulted kind).wait = s.wait := rfl
@[simp] theorem faulted_outs (kind : FaultKind) (s : State) : (s.faulted kind).outs = s.outs := rfl
@[simp] theorem faulted_mem (kind : FaultKind) (s : State) : (s.faulted kind).mem = s.mem.writeWord 4 (s.pc + 1) := rfl
@[simp] theorem faulted_expanded (kind : FaultKind) (s : State) : (s.faulted kind).expanded = s.expanded := rfl
@[simp] theorem faulted_cache (kind : FaultKind) (s : State) : (s.faulted kind).cache = s.cache.afterWrite 4 (s.pc + 1) := rfl
@[simp] theorem faulted_outcome (kind : FaultKind) (s : State) : (s.faulted kind).outcome = .next := rfl
@[simp] theorem faulted_readings (kind : FaultKind) (s : State) : (s.faulted kind).readings = s.readings := rfl
@[simp] theorem faulted_cap (kind : FaultKind) (s : State) : (s.faulted kind).cap = s.cap := rfl

@[simp] theorem fetched_r (s : State) : s.fetched.r = s.r := rfl
@[simp] theorem fetched_x (s : State) : s.fetched.x = s.x := rfl
@[simp] theorem fetched_pc (s : State) : s.fetched.pc = s.pc := rfl
@[simp] theorem fetched_ir (s : State) : s.fetched.ir = s.word s.pc.toNat := rfl
@[simp] theorem fetched_cc (s : State) : s.fetched.cc = s.cc := rfl
@[simp] theorem fetched_mar (s : State) : s.fetched.mar = s.pc := by
  simp only [State.fetched, State.afterRead, BitVec.ofNat_toNat, BitVec.setWidth_eq]
@[simp] theorem fetched_mbr (s : State) : s.fetched.mbr = s.word s.pc.toNat := rfl
@[simp] theorem fetched_mfr (s : State) : s.fetched.mfr = s.mfr := rfl
@[simp] theorem fetched_engine (s : State) : s.fetched.engine = s.engine := rfl
@[simp] theorem fetched_inq (s : State) : s.fetched.inq = s.inq := rfl
@[simp] theorem fetched_wait (s : State) : s.fetched.wait = s.wait := rfl
@[simp] theorem fetched_outs (s : State) : s.fetched.outs = s.outs := rfl
@[simp] theorem fetched_mem (s : State) : s.fetched.mem = s.mem := rfl
@[simp] theorem fetched_expanded (s : State) : s.fetched.expanded = s.expanded := rfl
@[simp] theorem fetched_cache (s : State) : s.fetched.cache = s.cache.afterRead s.pc.toNat (s.word s.pc.toNat) := rfl
@[simp] theorem fetched_outcome (s : State) : s.fetched.outcome = s.outcome := rfl
@[simp] theorem fetched_readings (s : State) : s.fetched.readings = s.readings := rfl
@[simp] theorem fetched_cap (s : State) : s.fetched.cap = s.cap := rfl
@[simp] theorem fetched_word (s : State) (b : Nat) : s.fetched.word b = s.word b := rfl

/-! The capacity depends on `EXPANDED` alone, and every fixed address is below it. -/

theorem cap_eq_of_expanded {s t : State} (h : t.expanded = s.expanded) : t.cap = s.cap := by
  simp only [State.cap, h]

theorem cap_cases (s : State) : s.cap = 2048 ∨ s.cap = 4096 := by
  cases h : s.expanded
  · exact .inl (by simp only [State.cap, h, Config.params]; rfl)
  · exact .inr (by simp only [State.cap, h, Config.params]; rfl)

theorem lt_cap_of_lt {s : State} {a : Nat} (h : a < 2048) : a < s.cap := by
  rcases cap_cases s with hc | hc <;> omega

theorem word_eq_of_mem {s t : State} (h : t.mem = s.mem) (a : Nat) : t.word a = s.word a := by
  simp only [State.word, h]

end Sys2Proof.Machine
end

