-- ==== Sys2Proof/Laws/Memory.lean ====
section
/-! SUPPORT. The Word Store: a read after a write, what a write leaves alone, and that every memory operation keeps the
canonical form and the bound. -/

namespace Sys2Proof.Machine

/-! ## Reading after writing -/

theorem Memory.readByte_eraseByte_same (m : Memory) (a : Nat) : (m.eraseByte a).readByte a = unlistedByte := by
  induction m with
  | nil => rfl
  | cons c m ih =>
    by_cases h : c.1 = a
    · simpa [Memory.eraseByte, h] using ih
    · have hc : (Memory.eraseByte (c :: m) a) = c :: Memory.eraseByte m a := by simp [Memory.eraseByte, h]
      rw [hc]
      simpa only [Memory.readByte, if_neg h] using ih

theorem Memory.readByte_eraseByte_other (m : Memory) {a b : Nat} (h : b ≠ a) :
    (m.eraseByte a).readByte b = m.readByte b := by
  induction m with
  | nil => rfl
  | cons c m ih =>
    by_cases hc : c.1 = a
    · have he : (Memory.eraseByte (c :: m) a) = Memory.eraseByte m a := by simp [Memory.eraseByte, hc]
      have hb : ¬ c.1 = b := by omega
      rw [he, ih]
      simp only [Memory.readByte, if_neg hb]
    · have he : (Memory.eraseByte (c :: m) a) = c :: Memory.eraseByte m a := by simp [Memory.eraseByte, hc]
      rw [he]
      by_cases hb : c.1 = b
      · simp only [Memory.readByte, if_pos hb]
      · simpa only [Memory.readByte, if_neg hb] using ih

theorem Memory.readByte_insertByte_other (m : Memory) {a b : Nat} (v : Byte) (h : b ≠ a) :
    (m.insertByte a v).readByte b = m.readByte b := by
  have hab : ¬ a = b := fun e => h e.symm
  induction m with
  | nil => simp only [Memory.insertByte, Memory.readByte, if_neg hab]
  | cons c m ih =>
    simp only [Memory.insertByte]
    split
    · simp only [Memory.readByte, if_neg hab]
    · simp only [Memory.readByte, ih]

theorem Memory.readByte_insertByte_same (m : Memory) (a : Nat) (v : Byte) (h : ∀ c ∈ m, c.1 ≠ a) :
    (m.insertByte a v).readByte a = v := by
  induction m with
  | nil => simp only [Memory.insertByte, Memory.readByte, if_pos]
  | cons c m ih =>
    simp only [Memory.insertByte]
    split
    · simp only [Memory.readByte, if_pos]
    · have hc : ¬ c.1 = a := h c (List.mem_cons_self ..)
      simp only [Memory.readByte, if_neg hc]
      exact ih fun d hd => h d (List.mem_cons_of_mem _ hd)

theorem Memory.eraseByte_keys (m : Memory) (a : Nat) : ∀ c ∈ m.eraseByte a, c.1 ≠ a := by
  intro c hc
  simpa [Memory.eraseByte] using (List.mem_filter.mp hc).2

theorem Memory.readByte_writeByte_same (m : Memory) (a : Nat) (v : Byte) : (m.writeByte a v).readByte a = v := by
  unfold Memory.writeByte
  split
  · next h => rw [m.readByte_eraseByte_same a, h]
  · exact Memory.readByte_insertByte_same _ a v (m.eraseByte_keys a)

theorem Memory.readByte_writeByte_other (m : Memory) {a b : Nat} (v : Byte) (h : b ≠ a) :
    (m.writeByte a v).readByte b = m.readByte b := by
  unfold Memory.writeByte
  split
  · exact m.readByte_eraseByte_other h
  · rw [Memory.readByte_insertByte_other _ v h, m.readByte_eraseByte_other h]

theorem joinBytes_highByte_lowByte (v : Word) : joinBytes (highByte v) (lowByte v) = v := by
  have h : joinBytes (highByte v) (lowByte v) = v.extractLsb' 0 16 :=
    BitVec.extractLsb'_append_extractLsb'_eq_extractLsb' (x := v) rfl
  simpa using h

/-- A read after a write to the same word gives the word written. -/
@[simp] theorem Memory.readWord_writeWord_same (m : Memory) (a : Nat) (v : Word) :
    (m.writeWord a v).readWord a = v := by
  have h : 2 * a ≠ 2 * a + 1 := by omega
  simp only [Memory.readWord, Memory.writeWord, Memory.readByte_writeByte_same, Memory.readByte_writeByte_other _ _ h,
    joinBytes_highByte_lowByte]

/-- A write leaves every other word alone. -/
theorem Memory.readWord_writeWord_other (m : Memory) {a b : Nat} (v : Word) (h : b ≠ a) :
    (m.writeWord a v).readWord b = m.readWord b := by
  have h1 : 2 * b ≠ 2 * a := by omega
  have h2 : 2 * b ≠ 2 * a + 1 := by omega
  have h3 : 2 * b + 1 ≠ 2 * a := by omega
  have h4 : 2 * b + 1 ≠ 2 * a + 1 := by omega
  simp only [Memory.readWord, Memory.writeWord, Memory.readByte_writeByte_other _ _ h1,
    Memory.readByte_writeByte_other _ _ h2, Memory.readByte_writeByte_other _ _ h3,
    Memory.readByte_writeByte_other _ _ h4]

theorem Memory.readByte_keepBelow (m : Memory) (n k : Nat) :
    (m.keepBelow n).readByte k = if k < 2 * n then m.readByte k else unlistedByte := by
  induction m with
  | nil => simp [Memory.keepBelow, Memory.readByte]
  | cons c m ih =>
    by_cases hc : c.1 < 2 * n
    · have he : Memory.keepBelow (c :: m) n = c :: Memory.keepBelow m n := by simp [Memory.keepBelow, hc]
      rw [he]
      by_cases hk : c.1 = k
      · simp only [Memory.readByte, if_pos hk, if_pos (hk ▸ hc)]
      · simpa only [Memory.readByte, if_neg hk] using ih
    · have he : Memory.keepBelow (c :: m) n = Memory.keepBelow m n := by simp [Memory.keepBelow, hc]
      rw [he, ih]
      by_cases hk : k < 2 * n
      · have hne : ¬ c.1 = k := by omega
        simp only [if_pos hk, Memory.readByte, if_neg hne]
      · simp only [if_neg hk]

/-- Clearing from a word on (R66, R67): the words below are kept and the others read 0. -/
theorem Memory.readWord_keepBelow (m : Memory) (n a : Nat) :
    (m.keepBelow n).readWord a = if a < n then m.readWord a else 0 := by
  by_cases h : a < n
  · have h1 : 2 * a + 1 < 2 * n := by omega
    have h2 : 2 * a < 2 * n := by omega
    simp only [Memory.readWord, Memory.readByte_keepBelow, if_pos h, if_pos h1, if_pos h2]
  · have h1 : ¬ 2 * a + 1 < 2 * n := by omega
    have h2 : ¬ 2 * a < 2 * n := by omega
    simp only [Memory.readWord, Memory.readByte_keepBelow, if_neg h, if_neg h1, if_neg h2]
    rfl

/-! ## The canonical form -/

theorem Memory.wfFrom_mono {lo lo' : Nat} (h : lo' ≤ lo) {m : Memory} (hm : Memory.wfFrom lo m = true) :
    Memory.wfFrom lo' m = true := by
  cases m with
  | nil => rfl
  | cons c m =>
    simp only [Memory.wfFrom, Bool.and_eq_true, decide_eq_true_eq] at hm ⊢
    exact ⟨⟨le_trans h hm.1.1, hm.1.2⟩, hm.2⟩

theorem Memory.wfFrom_filter (p : Host.Cell → Bool) {lo : Nat} {m : Memory} (hm : Memory.wfFrom lo m = true) :
    Memory.wfFrom lo (m.filter p) = true := by
  induction m generalizing lo with
  | nil => rfl
  | cons c m ih =>
    simp only [Memory.wfFrom, Bool.and_eq_true, decide_eq_true_eq] at hm
    rw [List.filter_cons]
    split
    · simp only [Memory.wfFrom, Bool.and_eq_true, decide_eq_true_eq]
      exact ⟨hm.1, ih hm.2⟩
    · exact Memory.wfFrom_mono (by omega) (ih hm.2)

theorem Memory.wfFrom_insertByte {lo : Nat} {m : Memory} {a : Nat} {v : Byte} (hm : Memory.wfFrom lo m = true)
    (ha : lo ≤ a) (hv : v ≠ unlistedByte) (hk : ∀ c ∈ m, c.1 ≠ a) : Memory.wfFrom lo (m.insertByte a v) = true := by
  induction m generalizing lo with
  | nil => simp [Memory.insertByte, Memory.wfFrom, ha, hv]
  | cons c m ih =>
    have hc : c.1 ≠ a := hk c (List.mem_cons_self ..)
    simp only [Memory.wfFrom, Bool.and_eq_true, decide_eq_true_eq, bne_iff_ne] at hm
    simp only [Memory.insertByte]
    split
    · next h =>
      simp only [Memory.wfFrom, Bool.and_eq_true, decide_eq_true_eq, bne_iff_ne]
      exact ⟨⟨ha, hv⟩, ⟨by omega, hm.1.2⟩, hm.2⟩
    · next h =>
      simp only [Memory.wfFrom, Bool.and_eq_true, decide_eq_true_eq, bne_iff_ne]
      exact ⟨hm.1, ih hm.2 (by omega) fun d hd => hk d (List.mem_cons_of_mem _ hd)⟩

theorem Memory.wf_writeByte {m : Memory} (a : Nat) (v : Byte) (hm : m.wf = true) : (m.writeByte a v).wf = true := by
  unfold Memory.writeByte
  split
  · exact Memory.wfFrom_filter _ hm
  · next hv => exact Memory.wfFrom_insertByte (Memory.wfFrom_filter _ hm) (Nat.zero_le a) hv (m.eraseByte_keys a)

/-- A word write keeps the canonical form. -/
theorem Memory.wf_writeWord {m : Memory} (a : Nat) (v : Word) (hm : m.wf = true) : (m.writeWord a v).wf = true :=
  Memory.wf_writeByte _ _ (Memory.wf_writeByte _ _ hm)

/-- Clearing from a word on keeps the canonical form. -/
theorem Memory.wf_keepBelow {m : Memory} (n : Nat) (hm : m.wf = true) : (m.keepBelow n).wf = true :=
  Memory.wfFrom_filter _ hm

/-- The reset store is in the canonical form. -/
theorem reset_mem_wf : State.reset.mem.wf = true := rfl

theorem Memory.readByte_of_below_wfFrom {lo k : Nat} {m : Memory} (hm : Memory.wfFrom lo m = true) (h : k < lo) :
    m.readByte k = unlistedByte := by
  induction m generalizing lo with
  | nil => rfl
  | cons c m ih =>
    simp only [Memory.wfFrom, Bool.and_eq_true, decide_eq_true_eq] at hm
    have hc : ¬ c.1 = k := by omega
    simpa only [Memory.readByte, if_neg hc] using ih hm.2 (by omega)

theorem Memory.readByte_head (c : Host.Cell) (m : Memory) : Memory.readByte (c :: m) c.1 = c.2 := by
  simp only [Memory.readByte, if_pos]

/-- Two stores in the canonical form that read alike are equal data. -/
theorem Memory.ext_of_wfFrom {lo : Nat} {m n : Memory} (hm : Memory.wfFrom lo m = true)
    (hn : Memory.wfFrom lo n = true) (h : ∀ k, m.readByte k = n.readByte k) : m = n := by
  induction m generalizing lo n with
  | nil =>
    cases n with
    | nil => rfl
    | cons d n =>
      simp only [Memory.wfFrom, Bool.and_eq_true, bne_iff_ne] at hn
      exact absurd ((Memory.readByte_head d n).symm.trans (h d.1).symm) hn.1.2
  | cons c m ih =>
    have hm' := hm
    simp only [Memory.wfFrom, Bool.and_eq_true, decide_eq_true_eq, bne_iff_ne] at hm'
    cases n with
    | nil => exact absurd ((Memory.readByte_head c m).symm.trans (h c.1)) hm'.1.2
    | cons d n =>
      have hn' := hn
      simp only [Memory.wfFrom, Bool.and_eq_true, decide_eq_true_eq, bne_iff_ne] at hn'
      have hcd : c.1 = d.1 := by
        rcases Nat.lt_trichotomy c.1 d.1 with hlt | heq | hlt
        · refine absurd ((Memory.readByte_head c m).symm.trans ((h c.1).trans ?_)) hm'.1.2
          exact Memory.readByte_of_below_wfFrom (lo := d.1) (m := d :: n)
            (by simp [Memory.wfFrom, hn'.1.2, hn'.2]) hlt
        · exact heq
        · refine absurd ((Memory.readByte_head d n).symm.trans ((h d.1).symm.trans ?_)) hn'.1.2
          exact Memory.readByte_of_below_wfFrom (lo := c.1) (m := c :: m)
            (by simp [Memory.wfFrom, hm'.1.2, hm'.2]) hlt
      have hval : c.2 = d.2 := by
        have := h c.1
        rwa [Memory.readByte_head, hcd, Memory.readByte_head] at this
      have htail : m = n := by
        refine ih hm'.2 (hcd ▸ hn'.2) fun k => ?_
        by_cases hk : c.1 = k
        · rw [Memory.readByte_of_below_wfFrom hm'.2 (by omega), Memory.readByte_of_below_wfFrom hn'.2 (by omega)]
        · have hk' : ¬ d.1 = k := by omega
          simpa only [Memory.readByte, if_neg hk, if_neg hk'] using h k
      rw [htail, Prod.ext hcd hval]

/-! ## The bound -/

theorem Memory.below_iff {n : Nat} {m : Memory} : m.below n = true ↔ ∀ c ∈ m, c.1 < 2 * n := by
  simp [Memory.below]

theorem Memory.mem_insertByte {m : Memory} {a : Nat} {v : Byte} {c : Host.Cell} (h : c ∈ m.insertByte a v) :
    c = (a, v) ∨ c ∈ m := by
  induction m with
  | nil => exact .inl (by simpa [Memory.insertByte] using h)
  | cons d m ih =>
    simp only [Memory.insertByte] at h
    split at h
    · exact (List.mem_cons.mp h).imp_right id
    · rcases List.mem_cons.mp h with h | h
      · exact .inr (h ▸ List.mem_cons_self ..)
      · exact (ih h).imp_right (List.mem_cons_of_mem _)

theorem Memory.mem_writeByte {m : Memory} {a : Nat} {v : Byte} {c : Host.Cell} (h : c ∈ m.writeByte a v) :
    c.1 = a ∨ c ∈ m := by
  unfold Memory.writeByte at h
  split at h
  · exact .inr (List.mem_filter.mp h).1
  · rcases Memory.mem_insertByte h with h | h
    · exact .inl (by rw [h])
    · exact .inr (List.mem_filter.mp h).1

/-- A write in range keeps the store inside its capacity. -/
theorem Memory.below_writeWord {m : Memory} {n a : Nat} (v : Word) (ha : a < n) (hm : m.below n = true) :
    (m.writeWord a v).below n = true := by
  rw [Memory.below_iff] at hm ⊢
  intro c hc
  rcases Memory.mem_writeByte hc with h | h
  · omega
  · rcases Memory.mem_writeByte h with h | h
    · omega
    · exact hm c h

/-- Clearing from a word on bounds the store by it, and keeps any bound. -/
theorem Memory.below_keepBelow (m : Memory) {n k : Nat} (h : n ≤ k) : (m.keepBelow n).below k = true := by
  rw [Memory.below_iff]
  intro c hc
  have := (List.mem_filter.mp hc).2
  simp only [decide_eq_true_eq] at this
  omega

end Sys2Proof.Machine
end

