-- ==== Sys2Proof/Laws/Cache.lean ====
section
/-! SUPPORT. The Lookaside Cache: what a lookup says about the lines, and that a read and a write keep it coherent. -/

namespace Sys2Proof.Machine

/-- A lookup answers with the word of a line of the cache. -/
theorem Cache.mem_of_lookup {c : Cache} {a : Nat} {w : Word} (h : c.lookup a = some w) : ⟨a, w⟩ ∈ c := by
  induction c with
  | nil => cases h
  | cons l c ih =>
    simp only [Cache.lookup] at h
    split at h
    · next ha =>
      cases h
      subst ha
      exact List.mem_cons_self ..
    · exact List.mem_cons_of_mem _ (ih h)

/-- A lookup finds nothing exactly when no line has the address. -/
theorem Cache.lookup_eq_none_iff {c : Cache} {a : Nat} : c.lookup a = none ↔ ∀ l ∈ c, l.addr ≠ a := by
  induction c with
  | nil => simp [Cache.lookup]
  | cons l c ih =>
    simp only [Cache.lookup, List.forall_mem_cons]
    split
    · next h => simp [h]
    · next h => simp only [ih, ne_eq, h, not_false_eq_true, true_and]

/-- The lines a new insertion leaves: the new one and lines that were there (R69). -/
theorem Cache.mem_insert {c : Cache} {a : Nat} {w : Word} {l : CacheLine} (h : l ∈ c.insert a w) :
    l = ⟨a, w⟩ ∨ l ∈ c := by
  rcases List.mem_cons.mp h with h | h
  · exact .inl h
  · refine .inr ?_
    split at h
    · exact List.mem_of_mem_dropLast h
    · exact h

theorem Cache.insert_tail_sublist (c : Cache) :
    ((if Config.params.cacheLines ≤ c.length then c.dropLast else c) : Cache).Sublist c := by
  split
  · exact List.dropLast_sublist c
  · exact List.Sublist.refl c

theorem Cache.nodup_insert {c : Cache} {a : Nat} {w : Word} (hc : (c.map CacheLine.addr).Nodup)
    (ha : c.lookup a = none) : ((c.insert a w).map CacheLine.addr).Nodup := by
  rw [Cache.lookup_eq_none_iff] at ha
  simp only [Cache.insert, List.map_cons, List.nodup_cons]
  have hs := (c.insert_tail_sublist).map CacheLine.addr
  refine ⟨fun hm => ?_, hc.sublist hs⟩
  obtain ⟨l, hl, he⟩ := List.mem_map.mp (hs.subset hm)
  exact ha l hl he

theorem Cache.length_insert {c : Cache} {a : Nat} {w : Word} (h : c.length ≤ Config.params.cacheLines) :
    (c.insert a w).length ≤ Config.params.cacheLines := by
  simp only [Cache.insert, List.length_cons]
  split
  · have : 0 < Config.params.cacheLines := by decide
    simp only [List.length_dropLast]
    omega
  · omega

@[simp] theorem Cache.update_addrs (c : Cache) (a : Nat) (w : Word) :
    (c.update a w).map CacheLine.addr = c.map CacheLine.addr := by
  simp only [Cache.update, List.map_map]
  refine List.map_congr_left fun l _ => ?_
  simp only [Function.comp_apply]
  split <;> rfl

@[simp] theorem Cache.length_update (c : Cache) (a : Nat) (w : Word) : (c.update a w).length = c.length := by
  simp [Cache.update]

/-- A line of an updated cache is the written one, or an old line of another address (R72, R73). -/
theorem Cache.mem_update {c : Cache} {a : Nat} {w : Word} {l : CacheLine} (h : l ∈ c.update a w) :
    l = ⟨a, w⟩ ∨ (l ∈ c ∧ l.addr ≠ a) := by
  obtain ⟨k, hk, he⟩ := List.mem_map.mp h
  split at he
  · next ha =>
    left
    rw [← he, ← ha]
  · next ha => exact .inr (he ▸ ⟨hk, ha⟩)

/-- The word a coherent cache holds for an address is the store's (R74). -/
theorem State.Coherent.lookup_eq {s : State} (hs : s.Coherent) {a : Nat} {w : Word} (h : s.cache.lookup a = some w) :
    a < s.cap ∧ w = s.word a := by
  have := hs.1 _ (Cache.mem_of_lookup h)
  exact ⟨this.1, this.2.symm⟩

/-- A coherent cache holds no line for an address at or above the capacity (R74, D39). -/
theorem State.Coherent.lookup_none {s : State} (hs : s.Coherent) {a : Nat} (h : s.cap ≤ a) : s.cache.lookup a = none := by
  rw [Cache.lookup_eq_none_iff]
  intro l hl he
  have := (hs.1 l hl).1
  omega

/-- Coherence depends on the store, the cache and the capacity alone. -/
theorem State.Coherent.congr {s t : State} (hs : s.Coherent) (hm : t.mem = s.mem) (hc : t.cache = s.cache)
    (he : t.expanded = s.expanded) : t.Coherent := by
  have hcap : t.cap = s.cap := cap_eq_of_expanded he
  refine ⟨fun l hl => ?_, by rw [hc]; exact hs.2⟩
  rw [hc] at hl
  rw [hcap, word_eq_of_mem hm]
  exact hs.1 l hl

/-- A read in range keeps coherence (R74). -/
theorem State.Coherent.afterRead {s : State} (hs : s.Coherent) {a : Nat} (ha : a < s.cap) : (s.afterRead a).Coherent := by
  cases h : s.cache.lookup a with
  | some w => exact hs.congr rfl (by simp only [afterRead_cache, Cache.afterRead, h]) rfl
  | none =>
    have hc : (s.afterRead a).cache = s.cache.insert a (s.word a) := by
      simp only [afterRead_cache, Cache.afterRead, h]
    refine ⟨fun l hl => ?_, by rw [hc]; exact Cache.nodup_insert hs.2 h⟩
    rw [hc] at hl
    rcases Cache.mem_insert hl with rfl | hl
    · exact ⟨ha, rfl⟩
    · exact hs.1 l hl

/-- A write in range keeps coherence (R74). -/
theorem State.Coherent.afterWrite {s : State} (hs : s.Coherent) {a : Nat} (v : Word) (ha : a < s.cap) :
    (s.afterWrite a v).Coherent := by
  have hsame : (s.afterWrite a v).word a = v := Memory.readWord_writeWord_same ..
  have hother : ∀ b, b ≠ a → (s.afterWrite a v).word b = s.word b := fun b hb =>
    Memory.readWord_writeWord_other _ v hb
  have hcap : (s.afterWrite a v).cap = s.cap := rfl
  cases h : s.cache.lookup a with
  | some w =>
    have hc : (s.afterWrite a v).cache = s.cache.update a v := by
      simp only [afterWrite_cache, Cache.afterWrite, h]
    refine ⟨fun l hl => ?_, by rw [hc, Cache.update_addrs]; exact hs.2⟩
    rw [hc] at hl
    rcases Cache.mem_update hl with rfl | ⟨hl, hne⟩
    · exact ⟨ha, hsame⟩
    · rw [hother _ hne, hcap]
      exact hs.1 l hl
  | none =>
    have hc : (s.afterWrite a v).cache = s.cache.insert a v := by
      simp only [afterWrite_cache, Cache.afterWrite, h]
    refine ⟨fun l hl => ?_, by rw [hc]; exact Cache.nodup_insert hs.2 h⟩
    rw [hc] at hl
    rcases Cache.mem_insert hl with rfl | hl
    · exact ⟨ha, hsame⟩
    · rw [hother _ (Cache.lookup_eq_none_iff.mp h l hl), hcap]
      exact hs.1 l hl

theorem Cache.length_afterRead {c : Cache} {a : Nat} {w : Word} (h : c.length ≤ Config.params.cacheLines) :
    (c.afterRead a w).length ≤ Config.params.cacheLines := by
  unfold Cache.afterRead
  split
  · exact h
  · exact Cache.length_insert h

theorem Cache.length_afterWrite {c : Cache} {a : Nat} {v : Word} (h : c.length ≤ Config.params.cacheLines) :
    (c.afterWrite a v).length ≤ Config.params.cacheLines := by
  unfold Cache.afterWrite
  split
  · rw [Cache.length_update]
    exact h
  · exact Cache.length_insert h

end Sys2Proof.Machine
end

