-- ==== Sys2Proof/Laws/Registers.lean ====
section
/-! SUPPORT. Reading a register after a write of one (R12, R21, R22). -/

namespace Sys2Proof.Machine

@[simp] theorem GRegs.get_set_same (g : GRegs) (i : GReg) (v : Word) : (g.set i v).get i = v := by
  cases i <;> rfl

theorem GRegs.get_set_other (g : GRegs) {i j : GReg} (v : Word) (h : j ≠ i) : (g.set i v).get j = g.get j := by
  cases i <;> cases j <;> first | rfl | exact absurd rfl h

/-- What a register write can do: its register holds the value and every other is unchanged. -/
theorem GRegs.set_isUpdate (g : GRegs) (i : GReg) (v : Word) : g.IsUpdate (g.set i v) i v :=
  ⟨g.get_set_same i v, fun _ h => g.get_set_other v h⟩

@[simp] theorem XRegs.get_set_same (x : XRegs) (i : XReg) (v : Word) : (x.set i v).get i = v := by
  cases i <;> rfl

theorem XRegs.get_set_other (x : XRegs) {i j : XReg} (v : Word) (h : j ≠ i) : (x.set i v).get j = x.get j := by
  cases i <;> cases j <;> first | rfl | exact absurd rfl h

/-- What an index register write can do. -/
theorem XRegs.set_isUpdate (x : XRegs) (i : XReg) (v : Word) : x.IsUpdate (x.set i v) i v :=
  ⟨x.get_set_same i v, fun _ h => x.get_set_other v h⟩

@[simp] theorem XRegs.setField_none (x : XRegs) (w : Word) : x.setField none w = x := rfl

@[simp] theorem XRegs.setField_some (x : XRegs) (j : XReg) (w : Word) : x.setField (some j) w = x.set j w := rfl

/-- The second register of a pair is never the first. -/
theorem pairRegister_ne {i j : GReg} (h : pairRegister i = some j) : j ≠ i := by
  cases i <;> cases h <;> decide

theorem GRegs.setNext_some (g : GRegs) {i j : GReg} (v : Word) (h : pairRegister i = some j) :
    g.setNext i v = g.set j v := by
  simp only [GRegs.setNext, h]

/-- With no register after it, the second result is discarded (R227). -/
theorem GRegs.setNext_none (g : GRegs) {i : GReg} (v : Word) (h : pairRegister i = none) : g.setNext i v = g := by
  simp only [GRegs.setNext, h]

end Sys2Proof.Machine
end

