-- ==== Sys2Proof/Laws/Access.lean ====
section
/-! SUPPORT. What each shared operation can do, said once: the access primitives, the resolver, the fetch, the ends of a
step, the fault dispatch. Meanings are reasoned about with these, not by unfolding them again. -/

namespace Sys2Proof.Machine

/-! ## Going on after an access -/

@[simp] theorem Access.andThen_ok {α : Type} (v : α) (s : State) (k : α → State → Result) :
    (Access.ok v s).andThen k = k v s := rfl

@[simp] theorem Access.andThen_stalled {α : Type} (s : State) (k : α → State → Result) :
    (Access.stalled s).andThen k = .next s.stalledAt := rfl

theorem complete_eq (s : State) : complete s = .next s.completed := rfl

theorem stall_eq (s : State) : stall s = .next s.stalledAt := rfl

/-! ## MemRead -/

/-- What a read that succeeds can do (R75, R70): MAR and MBR mirror it, the cache may gain a line, nothing else
changes. -/
theorem memRead_ok {a : Nat} {s t : State} {w : Word} (h : memRead a s = .ok w t) :
    t = { s with mar := BitVec.ofNat 16 a, mbr := w, cache := s.cache.afterRead a w } ∧
      (s.cache.lookup a = some w ∨ (s.cache.lookup a = none ∧ a < s.cap ∧ w = s.word a)) := by
  simp only [memRead, cachedRead, storeRead] at h
  cases hc : s.cache.lookup a with
  | some v =>
    simp only [hc] at h
    cases h
    exact ⟨by simp only [Cache.afterRead, hc], .inl rfl⟩
  | none =>
    simp only [hc] at h
    by_cases ha : a < s.cap
    · have ha' : a < ({ s with mar := BitVec.ofNat 16 a } : State).cap := ha
      simp only [if_pos ha'] at h
      cases h
      exact ⟨by simp only [Cache.afterRead, hc], .inr ⟨rfl, ha, rfl⟩⟩
    · have ha' : ¬ a < ({ s with mar := BitVec.ofNat 16 a } : State).cap := ha
      simp only [if_neg ha'] at h
      cases h

/-- What a read that stalls can do (R75): MAR shows the address, and nothing else changes. -/
theorem memRead_stalled {a : Nat} {s t : State} (h : memRead a s = .stalled t) :
    t = { s with mar := BitVec.ofNat 16 a } ∧ s.cache.lookup a = none ∧ s.cap ≤ a := by
  simp only [memRead, cachedRead, storeRead] at h
  cases hc : s.cache.lookup a with
  | some v =>
    simp only [hc] at h
    cases h
  | none =>
    simp only [hc] at h
    by_cases ha : a < s.cap
    · have ha' : a < ({ s with mar := BitVec.ofNat 16 a } : State).cap := ha
      simp only [if_pos ha'] at h
      cases h
    · have ha' : ¬ a < ({ s with mar := BitVec.ofNat 16 a } : State).cap := ha
      simp only [if_neg ha'] at h
      cases h
      exact ⟨rfl, rfl, Nat.le_of_not_lt ha⟩

/-- In a coherent machine a read in range gives the word of the store (R74, R75). -/
theorem memRead_of_lt {s : State} (hs : s.Coherent) {a : Nat} (ha : a < s.cap) :
    memRead a s = .ok (s.word a) (s.afterRead a) := by
  cases h : memRead a s with
  | ok w t =>
    obtain ⟨rfl, hw | hw⟩ := memRead_ok h
    · obtain rfl := (hs.lookup_eq hw).2
      rfl
    · obtain rfl := hw.2.2
      rfl
  | stalled t => exact absurd (memRead_stalled h).2.2 (by omega)

/-- In a coherent machine a read out of range stalls (R74, R75). -/
theorem memRead_of_ge {s : State} (hs : s.Coherent) {a : Nat} (ha : s.cap ≤ a) :
    memRead a s = .stalled { s with mar := BitVec.ofNat 16 a } := by
  cases h : memRead a s with
  | ok w t =>
    obtain ⟨-, hw | hw⟩ := memRead_ok h
    · have := (hs.lookup_eq hw).1
      omega
    · omega
  | stalled t => rw [(memRead_stalled h).1]

/-! ## MemWrite -/

/-- A write in range goes through to the store and the cache (R76, R72). -/
theorem memWrite_of_lt {s : State} {a : Nat} (v : Word) (ha : a < s.cap) :
    memWrite a v s = .ok () (s.afterWrite a v) := by
  have ha' : a < ({ s with mar := BitVec.ofNat 16 a, mbr := v } : State).cap := ha
  simp only [memWrite, cachedWrite, storeWrite, if_pos ha']
  rfl

/-- A write out of range stalls: MAR and MBR show it, and nothing else changes (R76). -/
theorem memWrite_of_ge {s : State} {a : Nat} (v : Word) (ha : s.cap ≤ a) :
    memWrite a v s = .stalled { s with mar := BitVec.ofNat 16 a, mbr := v } := by
  have ha' : ¬ a < ({ s with mar := BitVec.ofNat 16 a, mbr := v } : State).cap := Nat.not_lt.mpr ha
  simp only [memWrite, cachedWrite, storeWrite, if_neg ha']

@[simp] theorem afterWrite_word_same (s : State) (a : Nat) (v : Word) : (s.afterWrite a v).word a = v :=
  Memory.readWord_writeWord_same ..

theorem afterWrite_word_other (s : State) {a b : Nat} (v : Word) (h : b ≠ a) : (s.afterWrite a v).word b = s.word b :=
  Memory.readWord_writeWord_other _ v h

/-! ## The resolver -/

/-- What the resolver can do when it gives an address (R140): MAR, MBR and the cache may change, nothing else. -/
theorem resolveEA_ok {ix : Option XReg} {ind : Bool} {addr ea : Nat} {s t : State}
    (h : resolveEA ix ind addr s = .ok ea t) : t = { s with mar := t.mar, mbr := t.mbr, cache := t.cache } := by
  cases ind with
  | false =>
    cases h
    rfl
  | true =>
    simp only [resolveEA, if_true] at h
    cases hr : memRead (baseAddress ix addr s) s with
    | ok w u =>
      simp only [hr] at h
      cases h
      rw [(memRead_ok hr).1]
    | stalled u =>
      simp only [hr] at h
      cases h

/-- What the resolver can do when it stalls (R142): MAR alone changes. -/
theorem resolveEA_stalled {ix : Option XReg} {ind : Bool} {addr : Nat} {s t : State}
    (h : resolveEA ix ind addr s = .stalled t) :
    ind = true ∧ t = { s with mar := BitVec.ofNat 16 (baseAddress ix addr s) } ∧ s.cap ≤ baseAddress ix addr s := by
  cases ind with
  | false => cases h
  | true =>
    simp only [resolveEA, if_true] at h
    cases hr : memRead (baseAddress ix addr s) s with
    | ok w u =>
      simp only [hr] at h
      cases h
    | stalled u =>
      simp only [hr] at h
      cases h
      exact ⟨rfl, (memRead_stalled hr).1, (memRead_stalled hr).2.2⟩

theorem State.Coherent.afterResolve {s : State} (hs : s.Coherent) {ix : Option XReg} {ind : Bool} {addr : Nat}
    (h : s.CanResolve ix ind addr) : (s.afterResolve ix ind addr).Coherent := by
  cases ind with
  | false => exact hs
  | true => exact hs.afterRead (h rfl)

/-- The resolver changes none of these. -/
@[simp] theorem afterResolve_cap (ix : Option XReg) (ind : Bool) (addr : Nat) (s : State) :
    (s.afterResolve ix ind addr).cap = s.cap := by
  cases ind <;> rfl

@[simp] theorem afterResolve_word (ix : Option XReg) (ind : Bool) (addr : Nat) (s : State) (a : Nat) :
    (s.afterResolve ix ind addr).word a = s.word a := by
  cases ind <;> rfl

@[simp] theorem afterResolve_r (ix : Option XReg) (ind : Bool) (addr : Nat) (s : State) :
    (s.afterResolve ix ind addr).r = s.r := by
  cases ind <;> rfl

@[simp] theorem afterResolve_x (ix : Option XReg) (ind : Bool) (addr : Nat) (s : State) :
    (s.afterResolve ix ind addr).x = s.x := by
  cases ind <;> rfl

@[simp] theorem afterResolve_pc (ix : Option XReg) (ind : Bool) (addr : Nat) (s : State) :
    (s.afterResolve ix ind addr).pc = s.pc := by
  cases ind <;> rfl

@[simp] theorem afterResolve_cc (ix : Option XReg) (ind : Bool) (addr : Nat) (s : State) :
    (s.afterResolve ix ind addr).cc = s.cc := by
  cases ind <;> rfl

/-! ## The fault dispatch and the trap's return slot -/

/-- The dispatch always answers, and this is what it does (R272). -/
theorem raiseFault_eq (kind : FaultKind) (s : State) : raiseFault kind s = .next (s.faulted kind) := by
  have h : Config.params.addrFaultReturn < s.cap := lt_cap_of_lt (by decide)
  simp only [raiseFault, memWrite_of_lt _ h, Access.andThen_ok]
  rfl

@[simp] theorem faulted_word_same (kind : FaultKind) (s : State) : (s.faulted kind).word 4 = s.pc + 1 :=
  Memory.readWord_writeWord_same ..

theorem faulted_word_other (kind : FaultKind) (s : State) {a : Nat} (h : a ≠ 4) : (s.faulted kind).word a = s.word a :=
  Memory.readWord_writeWord_other _ _ h

/-- Saving the trap's return address always succeeds (R251, R80). -/
theorem saveTrapReturn_eq (s : State) : saveTrapReturn s = .ok () { s.afterWrite 2 (s.pc + 1) with pc := 0 } := by
  have h : Config.params.addrTrapReturn < s.cap := lt_cap_of_lt (by decide)
  simp only [saveTrapReturn, memWrite_of_lt _ h]
  rfl

/-! ## The fetch -/

/-- In a coherent machine a fetch in range gives the word of the store at PC (R132, R74). -/
theorem fetch_of_lt {s : State} (hs : s.Coherent) (h : s.pc.toNat < s.cap) :
    fetch s = .ok (s.word s.pc.toNat) s.fetched := by
  simp only [fetch, u16, memRead_of_lt hs h]
  rfl

/-- What a fetch that succeeds can do (R132). -/
theorem fetch_ok {s t : State} {w : Word} (h : fetch s = .ok w t) :
    t = { s with ir := w, mar := s.pc, mbr := w, cache := s.cache.afterRead s.pc.toNat w } := by
  simp only [fetch, u16] at h
  cases hr : memRead s.pc.toNat s with
  | ok v u =>
    simp only [hr] at h
    cases h
    rw [(memRead_ok hr).1, BitVec.ofNat_toNat, BitVec.setWidth_eq]
  | stalled u =>
    simp only [hr] at h
    cases h

/-- What a fetch that stalls can do (R132). -/
theorem fetch_stalled {s t : State} (h : fetch s = .stalled t) :
    t = { s with mar := s.pc } ∧ s.cap ≤ s.pc.toNat := by
  simp only [fetch, u16] at h
  cases hr : memRead s.pc.toNat s with
  | ok v u =>
    simp only [hr] at h
    cases h
  | stalled u =>
    simp only [hr] at h
    cases h
    refine ⟨?_, (memRead_stalled hr).2.2⟩
    rw [(memRead_stalled hr).1, BitVec.ofNat_toNat, BitVec.setWidth_eq]

end Sys2Proof.Machine
end

