-- ==== Sys2Proof/Laws/Encoding.lean ====
section
/-! SUPPORT. The fields of a word R114's encoding function builds are the numbers it was built from. -/

namespace Sys2Proof

/-- The word of R114 as a number, when every field is in range. -/
theorem encWord_toNat {op r ix i addr : Nat} (ho : op < 64) (hr : r < 4) (hx : ix < 4) (hi : i < 2) (ha : addr < 32) :
    (encWord op r ix i addr).toNat = op * 1024 + r * 256 + ix * 64 + i * 32 + addr := by
  rw [encWord, BitVec.toNat_ofNat, Nat.mod_eq_of_lt (by omega)]

/-- The opcode of R114's word. -/
theorem opField_encWord {op r ix i addr : Nat} (ho : op < 64) (hr : r < 4) (hx : ix < 4) (hi : i < 2)
    (ha : addr < 32) : (opField (encWord op r ix i addr)).toNat = op := by
  simp only [opField, BitVec.extractLsb'_toNat, encWord_toNat ho hr hx hi ha, Nat.shiftRight_eq_div_pow]
  omega

/-- The register field of R114's word. -/
theorem rField_encWord {op r ix i addr : Nat} (ho : op < 64) (hr : r < 4) (hx : ix < 4) (hi : i < 2)
    (ha : addr < 32) : rField (encWord op r ix i addr) = BitVec.ofNat 2 r := by
  apply BitVec.eq_of_toNat_eq
  simp only [rField, BitVec.extractLsb'_toNat, encWord_toNat ho hr hx hi ha, Nat.shiftRight_eq_div_pow,
    BitVec.toNat_ofNat]
  omega

/-- The index field of R114's word. -/
theorem ixField_encWord {op r ix i addr : Nat} (ho : op < 64) (hr : r < 4) (hx : ix < 4) (hi : i < 2)
    (ha : addr < 32) : ixField (encWord op r ix i addr) = BitVec.ofNat 2 ix := by
  apply BitVec.eq_of_toNat_eq
  simp only [ixField, BitVec.extractLsb'_toNat, encWord_toNat ho hr hx hi ha, Nat.shiftRight_eq_div_pow,
    BitVec.toNat_ofNat]
  omega

/-- The indirect bit of R114's word. -/
theorem indField_encWord {op r ix i addr : Nat} (ho : op < 64) (hr : r < 4) (hx : ix < 4) (hi : i < 2)
    (ha : addr < 32) : indField (encWord op r ix i addr) = decide (i = 1) := by
  simp only [indField, BitVec.getLsbD, encWord_toNat ho hr hx hi ha, Nat.testBit_eq_decide_div_mod_eq]
  congr 1
  simp only [eq_iff_iff]
  omega

/-- The 5-bit field of R114's word. -/
theorem addrField_encWord {op r ix i addr : Nat} (ho : op < 64) (hr : r < 4) (hx : ix < 4) (hi : i < 2)
    (ha : addr < 32) : addrField (encWord op r ix i addr) = addr := by
  simp only [addrField, BitVec.extractLsb'_toNat, encWord_toNat ho hr hx hi ha, Nat.shiftRight_eq_div_pow]
  omega

/-- A 5-bit number is below 32. -/
theorem fits5_iff {n : Nat} : fits5 n = true ↔ n < 32 := by
  simp [fits5]

theorem addrField_lt (w : Word) : addrField w < 32 := (w.extractLsb' 0 5).isLt

theorem GReg.number_lt (r : GReg) : r.number < 4 := by
  cases r <;> decide

theorem XReg.number_lt (ix : Option XReg) : XReg.number ix < 4 := by
  rcases ix with _ | j
  · decide
  · cases j <;> decide

theorem Cond.number_lt (c : Cond) : c.number < 4 := by
  cases c <;> decide

theorem Direction.number_lt (lr : Config.LRBit) (d : Direction) : d.number lr < 4 := by
  cases lr <;> cases d <;> decide

theorem indNumber_lt (ind : Bool) : indNumber ind < 2 := by
  cases ind <;> decide

@[simp] theorem GReg.ofField_number (r : GReg) : GReg.ofField (BitVec.ofNat 2 r.number) = r := by
  cases r <;> rfl

@[simp] theorem XReg.ofField_number (ix : Option XReg) : XReg.ofField (BitVec.ofNat 2 (XReg.number ix)) = ix := by
  rcases ix with _ | j
  · rfl
  · cases j <;> rfl

@[simp] theorem Cond.ofField_number (c : Cond) : Cond.ofField (BitVec.ofNat 2 c.number) = c := by
  cases c <;> rfl

@[simp] theorem indNumber_eq_one (ind : Bool) : decide (indNumber ind = 1) = ind := by
  cases ind <;> rfl

/-- The direction bit of R114's word with a direction in its index field, for either `LR_BIT` (R104). -/
theorem dirField_encWord {op r i addr : Nat} (lr : Config.LRBit) (d : Direction) (ho : op < 64) (hr : r < 4) (hi : i < 2)
    (ha : addr < 32) : dirField lr (encWord op r (d.number lr) i addr) = d := by
  have hb : (encWord op r (d.number lr) i addr).getLsbD lr.number = decide (d = .left) := by
    simp only [BitVec.getLsbD, encWord_toNat ho hr (d.number_lt lr) hi ha, Nat.testBit_eq_decide_div_mod_eq]
    congr 1
    cases lr <;> cases d <;> simp [Direction.number, Config.LRBit.number] <;> omega
  rw [dirField, hb]
  cases d <;> rfl

end Sys2Proof
end

