-- ==== Sys2Proof/Laws/Operations.lean ====
section
/-! SUPPORT. What the operations the meanings share can do, said once: the arithmetic of the operand forms, the pair of
results, the checked store, the branch, the trap's vectoring, and a word placed where the next step fetches. -/

namespace Sys2Proof.Machine

/-! ## Arithmetic -/

/-- The truncated exact sum is the sum modulo 65536 (R11, R180). -/
theorem trunc16_exactSum (a b : Word) : trunc16 (exactSum a b) = a + b := by
  simp [trunc16, exactSum, s16, BitVec.ofInt_add]

/-- The truncated exact difference is the difference modulo 65536 (R11, R180). -/
theorem trunc16_exactDiff (a b : Word) : trunc16 (exactDiff a b) = a - b := by
  rw [trunc16, exactDiff, s16, s16, ← BitVec.toInt_inj]
  simp [BitVec.toInt_sub]

theorem trunc16_exactSumImm (a : Word) (imm : Nat) : trunc16 (exactSumImm a imm) = a + BitVec.ofNat 16 imm := by
  rw [trunc16, exactSumImm, s16, BitVec.ofInt_add]
  simp

theorem trunc16_exactDiffImm (a : Word) (imm : Nat) : trunc16 (exactDiffImm a imm) = a - BitVec.ofNat 16 imm := by
  rw [trunc16, exactDiffImm, s16, Int.sub_eq_add_neg, BitVec.ofInt_add, BitVec.ofInt_neg, BitVec.sub_eq_add_neg]
  simp

/-- The 32-bit pattern of the product holds it exactly (R221 step 1). -/
theorem product32_toInt (a b : Word) : (product32 a b).toInt = a.toInt * b.toInt := by
  rw [product32, BitVec.toInt_ofInt, s16, s16]
  have ha := BitVec.toInt_lt (x := a)
  have ha' := BitVec.le_toInt a
  have hb := BitVec.toInt_lt (x := b)
  have hb' := BitVec.le_toInt b
  simp only [Nat.add_one_sub_one] at ha ha' hb hb'
  apply Int.bmod_eq_of_le <;> norm_num <;> nlinarith

/-- The two halves put together are the pattern (R221 steps 3 and 4). -/
theorem highHalf_append_lowHalf (p : BitVec 32) : (highHalf p ++ lowHalf p : BitVec 32) = p := by
  have h : highHalf p ++ lowHalf p = p.extractLsb' 0 32 :=
    BitVec.extractLsb'_append_extractLsb'_eq_extractLsb' (x := p) rfl
  simpa using h

/-- The remainder of DVD is the remainder of the division that rounds toward zero (R222 step 3). -/
theorem remainder_eq_tmod (n d : Word) : remainder n d = Int.tmod n.toInt d.toInt := by
  simp only [remainder, quotient, s16]
  rw [Int.tmod_def, Int.mul_comm]

/-- NOT inverts every bit (R226). -/
theorem ofNat_not (w : Word) : BitVec.ofNat 16 (65535 - u16 w) = ~~~w := by
  apply BitVec.eq_of_toNat_eq
  simp [u16]
  omega

/-- SRC to the right is the shift that copies the sign (R241). -/
theorem shiftWord_right (n : Nat) (w : Word) : shiftWord .right n w = w.sshiftRight n := by
  rw [← BitVec.toInt_inj]
  simp only [shiftWord, trunc16, s16, BitVec.toInt_ofInt, BitVec.toInt_sshiftRight, Int.shiftRight_eq_div_pow]
  have h := BitVec.toInt_lt (x := w)
  have h' := BitVec.le_toInt w
  simp only [Nat.add_one_sub_one] at h h'
  have hp : (0 : Int) < 2 ^ n := by positivity
  have hlow : -32768 ≤ w.toInt / 2 ^ n := by
    rw [Int.le_ediv_iff_mul_le hp]
    nlinarith
  have hhigh : w.toInt / 2 ^ n < 32768 := by
    rw [Int.ediv_lt_iff_lt_mul hp]
    nlinarith
  have hcast : ((2 ^ n : ℕ) : Int) = 2 ^ n := by
    push_cast
    rfl
  rw [hcast]
  apply Int.bmod_eq_of_le <;> norm_num <;> omega

/-- SRC to the left is the plain left shift (R241). -/
theorem shiftWord_left (n : Nat) (w : Word) : shiftWord .left n w = w <<< n := by
  apply BitVec.eq_of_toNat_eq
  simp [shiftWord, u16, Nat.shiftLeft_eq]

/-- One bit of rotation to the left (R242). -/
theorem rotateOnce_left (w : Word) : rotateOnce .left w = w.rotateLeft 1 := by
  apply BitVec.eq_of_toNat_eq
  simp only [rotateOnce, u16, BitVec.toNat_ofNat, BitVec.toNat_rotateLeft, Nat.shiftLeft_eq, Nat.shiftRight_eq_div_pow]
  have hw := w.isLt
  norm_num
  have hor := Nat.two_pow_add_eq_or_of_lt (b := w.toNat / 32768) (i := 1) (by omega) (w.toNat % 32768)
  have hmod : w.toNat * 2 % 65536 = 2 ^ 1 * (w.toNat % 32768) := by omega
  rw [hmod, ← hor]
  omega

/-- One bit of rotation to the right (R242). -/
theorem rotateOnce_right (w : Word) : rotateOnce .right w = w.rotateRight 1 := by
  apply BitVec.eq_of_toNat_eq
  simp only [rotateOnce, u16, BitVec.toNat_ofNat, BitVec.toNat_rotateRight, Nat.shiftLeft_eq, Nat.shiftRight_eq_div_pow]
  have hw := w.isLt
  norm_num
  have hor := Nat.two_pow_add_eq_or_of_lt (b := w.toNat / 2) (i := 15) (by omega) (w.toNat % 2)
  have hmod : w.toNat * 32768 % 65536 = 2 ^ 15 * (w.toNat % 2) := by omega
  rw [hmod, Nat.or_comm, ← hor]
  omega

/-! ## The index field LDX and STX give the resolver -/

/-- By default none (R141, D5). -/
theorem movedIndex_of_false (ix : Option XReg) {s : State} (h : s.readings.ldxStxIndexed = false) :
    movedIndex ix s = none := by
  simp [movedIndex, h]

/-- With `LDX_STX_INDEXED` the field itself (R141). -/
theorem movedIndex_of_true (ix : Option XReg) {s : State} (h : s.readings.ldxStxIndexed = true) :
    movedIndex ix s = ix := by
  simp [movedIndex, h]

/-- Index field 0 names no register under either reading (R22). -/
@[simp] theorem movedIndex_none (s : State) : movedIndex none s = none := by
  simp [movedIndex]

/-! ## The pair of results of MLT and DVD -/

/-- The first result is in `R[i]` whether or not there is a register after it. -/
theorem setPair_get_first (i : GReg) (v w : Word) (s : State) : (setPair i v w s).r.get i = v := by
  cases h : pairRegister i with
  | none => rw [setPair_r, GRegs.setNext_none _ _ h, GRegs.get_set_same]
  | some j =>
    rw [setPair_r, GRegs.setNext_some _ _ h, GRegs.get_set_other _ _ (pairRegister_ne h).symm, GRegs.get_set_same]

/-- The second result is in the register after it, when there is one. -/
theorem setPair_get_second {i j : GReg} (v w : Word) (s : State) (h : pairRegister i = some j) :
    (setPair i v w s).r.get j = w := by
  rw [setPair_r, GRegs.setNext_some _ _ h, GRegs.get_set_same]

/-- No other register changes. -/
theorem setPair_get_other {i g : GReg} (v w : Word) (s : State) (h : g ≠ i) (hp : pairRegister i ≠ some g) :
    (setPair i v w s).r.get g = s.r.get g := by
  cases hi : pairRegister i with
  | none => rw [setPair_r, GRegs.setNext_none _ _ hi, GRegs.get_set_other _ _ h]
  | some j =>
    have hg : g ≠ j := fun e => hp (hi.trans (congrArg some e.symm))
    rw [setPair_r, GRegs.setNext_some _ _ hi, GRegs.get_set_other _ _ hg, GRegs.get_set_other _ _ h]

/-! ## The checked store, the branch, the trap's vectoring -/

/-- A store up to address 27 dispatches fault 0 (R162, R166). -/
theorem storeChecked_of_le {ea : Nat} (v : Word) (s : State) (h : ea ≤ 27) :
    storeChecked ea v s = .next (s.faulted .protectedWrite) := by
  have hp : isProtected ea = true := decide_eq_true h
  simp only [storeChecked, hp, if_true, raiseFault_eq]

/-- A store above 27 and below the capacity is made, and PC advances (R162, R166). -/
theorem storeChecked_of_lt {ea : Nat} (v : Word) {s : State} (h : 27 < ea) (he : ea < s.cap) :
    storeChecked ea v s = .next (advance (s.afterWrite ea v)).completed := by
  have hp : isProtected ea = false := decide_eq_false (Nat.not_le.mpr h)
  simp [storeChecked, hp, memWrite_of_lt v he, complete_eq]

/-- A store at or above the capacity stalls: MAR and MBR show it (R162, R166). -/
theorem storeChecked_of_ge {ea : Nat} (v : Word) {s : State} (he : s.cap ≤ ea) :
    storeChecked ea v s = .next ({ s with mar := BitVec.ofNat 16 ea, mbr := v } : State).stalledAt := by
  have h : 27 < ea := by
    rcases cap_cases s with hc | hc <;> omega
  have hp : isProtected ea = false := decide_eq_false (Nat.not_le.mpr h)
  simp [storeChecked, hp, memWrite_of_ge v he]

/-- A branch taken goes to the truncated effective address (R200). -/
theorem branch_true (ea : Nat) (s : State) : branch true ea s = .next (jumpTo ea s).completed := rfl

/-- A branch not taken goes to the next word (R200). -/
theorem branch_false (ea : Nat) (s : State) : branch false ea s = .next (advance s).completed := rfl

/-- The vectoring of a valid trap in a coherent machine (R251 step 4). -/
theorem vectorTrap_eq {s : State} (hs : s.Coherent) (code : Nat) :
    vectorTrap code s = .next (jumpTo ((s.word 0).toNat + code) (s.afterRead 0)).completed := by
  have h : Config.params.addrTrapBase < s.cap := lt_cap_of_lt (by decide)
  simp only [vectorTrap, memRead_of_lt hs h]
  rfl

/-! ## A word placed where the next step fetches -/

/-- After the word is placed the machine is still coherent, PC is in range, and the word is what the fetch reads. -/
theorem placeAtFetch_fetches {s : State} (hs : s.Coherent) (w : Word) :
    (placeAtFetch s w).Coherent ∧ (placeAtFetch s w).pc.toNat < (placeAtFetch s w).cap ∧
      (placeAtFetch s w).word (placeAtFetch s w).pc.toNat = w := by
  have key : ∀ u : State, u.Coherent → u.pc.toNat < u.cap →
      ({ u with mem := u.mem.writeWord u.pc.toNat w, cache := u.cache.update u.pc.toNat w } : State).Coherent := by
    intro u hu hp
    refine ⟨fun l hl => ?_, ?_⟩
    · rcases Cache.mem_update hl with rfl | ⟨hl, hne⟩
      · exact ⟨hp, Memory.readWord_writeWord_same ..⟩
      · exact ⟨(hu.1 l hl).1, (Memory.readWord_writeWord_other _ w hne).trans (hu.1 l hl).2⟩
    · simpa using hu.2
  unfold placeAtFetch
  by_cases h : u16 s.pc < s.cap
  · simp only [if_pos h]
    exact ⟨key s hs h, h, Memory.readWord_writeWord_same ..⟩
  · simp only [if_neg h]
    have h0 : (0 : Word).toNat < ({ s with pc := 0 } : State).cap := lt_cap_of_lt (by decide)
    exact ⟨key { s with pc := 0 } (hs.congr rfl rfl rfl) h0, h0, Memory.readWord_writeWord_same ..⟩

end Sys2Proof.Machine
end

