-- ==== Sys2Proof/Laws/Effects.lean ====
section
/-! SUPPORT. What one instruction can do to the memory side of the machine: reads and writes through the cache, in range,
and no write below address 28 but to words 2 and 4. Rules about every instruction are derived from this. -/

namespace Sys2Proof.Machine

/-- The memory side of the second state is that of the first after some accesses of the engine (R75 to R77, R80). -/
inductive MemSide (s : State) : State → Prop
  | keep {t : State} : t.mem = s.mem → t.cache = s.cache → t.expanded = s.expanded → MemSide s t
  | read {t u : State} (a : Nat) (w : Word) : MemSide s t →
      (t.cache.lookup a = some w ∨ (t.cache.lookup a = none ∧ a < t.cap ∧ w = t.word a)) →
      u.mem = t.mem → u.cache = t.cache.afterRead a w → u.expanded = t.expanded → MemSide s u
  | write {t u : State} (a : Nat) (v : Word) : MemSide s t → a < t.cap → (27 < a ∨ a = 2 ∨ a = 4) →
      u.mem = t.mem.writeWord a v → u.cache = t.cache.afterWrite a v → u.expanded = t.expanded → MemSide s u

theorem MemSide.refl (s : State) : MemSide s s := .keep rfl rfl rfl

/-- What is not the memory side does not matter. -/
theorem MemSide.congr {s t u : State} (h : MemSide s t) (hm : u.mem = t.mem) (hc : u.cache = t.cache)
    (he : u.expanded = t.expanded) : MemSide s u := by
  cases h with
  | keep a b c => exact .keep (hm.trans a) (hc.trans b) (he.trans c)
  | read a w h i j k l => exact .read a w h i (hm.trans j) (hc.trans k) (he.trans l)
  | write a w h i p j k l => exact .write a w h i p (hm.trans j) (hc.trans k) (he.trans l)

theorem MemSide.trans {s t u : State} (h : MemSide s t) (k : MemSide t u) : MemSide s u := by
  induction k with
  | keep a b c => exact h.congr a b c
  | read a w _ i j k l ih => exact .read a w ih i j k l
  | write a w _ i p j k l ih => exact .write a w ih i p j k l

theorem MemSide.of_memRead_ok {s t u : State} {a : Nat} {w : Word} (h : MemSide s t) (hr : memRead a t = .ok w u) :
    MemSide s u := by
  obtain ⟨rfl, hw⟩ := memRead_ok hr
  exact .read a w h hw rfl rfl rfl

theorem MemSide.of_memRead_stalled {s t u : State} {a : Nat} (h : MemSide s t) (hr : memRead a t = .stalled u) :
    MemSide s u := by
  obtain ⟨rfl, -⟩ := memRead_stalled hr
  exact h.congr rfl rfl rfl

theorem MemSide.of_resolveEA_ok {s t u : State} {ix : Option XReg} {ind : Bool} {addr ea : Nat} (h : MemSide s t)
    (hr : resolveEA ix ind addr t = .ok ea u) : MemSide s u := by
  cases ind with
  | false =>
    cases hr
    exact h
  | true =>
    simp only [resolveEA, if_true] at hr
    split at hr
    · next hm =>
      cases hr
      exact h.of_memRead_ok hm
    · cases hr

theorem MemSide.of_resolveEA_stalled {s t u : State} {ix : Option XReg} {ind : Bool} {addr : Nat} (h : MemSide s t)
    (hr : resolveEA ix ind addr t = .stalled u) : MemSide s u := by
  obtain ⟨-, rfl, -⟩ := resolveEA_stalled hr
  exact h.congr rfl rfl rfl

theorem MemSide.faulted {s t : State} {kind : FaultKind} (h : MemSide s t) : MemSide s (t.faulted kind) :=
  .write 4 (t.pc + 1) h (lt_cap_of_lt (by decide)) (.inr (.inr rfl)) rfl rfl rfl

/-- The result is a next state whose memory side comes from `s` by accesses of the engine. -/
abbrev Keeps (s : State) (r : Result) : Prop := ∃ t, r = .next t ∧ MemSide s t

/-- An access and what follows it. -/
theorem keeps_andThen {α : Type} {s : State} {x : Access α} {k : α → State → Result}
    (ok : ∀ v u, x = .ok v u → Keeps s (k v u)) (stalled : ∀ u, x = .stalled u → MemSide s u) :
    Keeps s (x.andThen k) := by
  cases x with
  | ok v u => exact ok v u rfl
  | stalled u => exact ⟨_, rfl, (stalled u rfl).congr rfl rfl rfl⟩

/-- An instruction that begins with the resolver. -/
theorem keeps_resolveEA {s : State} {ix : Option XReg} {ind : Bool} {addr : Nat} {k : Nat → State → Result}
    (h : ∀ ea u, MemSide s u → Keeps s (k ea u)) : Keeps s ((resolveEA ix ind addr s).andThen k) :=
  keeps_andThen (fun ea u hr => h ea u ((MemSide.refl s).of_resolveEA_ok hr))
    fun _ hr => (MemSide.refl s).of_resolveEA_stalled hr

/-- An operand read and what follows it. -/
theorem keeps_memRead {s u : State} {ea : Nat} {k : Word → State → Result} (hu : MemSide s u)
    (h : ∀ w t, MemSide s t → Keeps s (k w t)) : Keeps s ((memRead ea u).andThen k) :=
  keeps_andThen (fun w t hr => h w t (hu.of_memRead_ok hr)) fun _ hr => hu.of_memRead_stalled hr

/-- The checked store. -/
theorem keeps_storeChecked {s u : State} {ea : Nat} {v : Word} (hu : MemSide s u) : Keeps s (storeChecked ea v u) := by
  by_cases h : ea ≤ 27
  · exact ⟨_, storeChecked_of_le v u h, hu.faulted⟩
  · by_cases he : ea < u.cap
    · exact ⟨_, storeChecked_of_lt v (by omega) he, .write ea v hu he (.inl (by omega)) rfl rfl rfl⟩
    · exact ⟨_, storeChecked_of_ge v (by omega), hu.congr rfl rfl rfl⟩

theorem keeps_branch {s u : State} {taken : Bool} {ea : Nat} (hu : MemSide s u) : Keeps s (branch taken ea u) := by
  cases taken <;> exact ⟨_, rfl, hu.congr rfl rfl rfl⟩

/-- Every instruction answers a next state, and this is all it does to the memory side. -/
theorem exec_keeps (i : Instr) (s : State) : Keeps s (exec i s) := by
  have h := MemSide.refl s
  cases i with
  | hlt | air | sir | rfs | mlt | trr | and | orr | not | src | rrc | output =>
    exact ⟨_, rfl, h.congr rfl rfl rfl⟩
  | ldr | amr | smr | ldx =>
    exact keeps_resolveEA fun _ _ hu => keeps_memRead hu fun _ _ ht => ⟨_, rfl, ht.congr rfl rfl rfl⟩
  | lda | jma | jsr => exact keeps_resolveEA fun _ _ hu => ⟨_, rfl, hu.congr rfl rfl rfl⟩
  | jz | jne | jcc | jge => exact keeps_resolveEA fun _ _ hu => keeps_branch hu
  | sob => exact keeps_resolveEA fun _ _ hu => keeps_branch (hu.congr rfl rfl rfl)
  | str => exact keeps_resolveEA fun _ _ hu => keeps_storeChecked hu
  | stx ix =>
    cases ix with
    | none => exact keeps_resolveEA fun _ _ hu => ⟨_, rfl, hu.congr rfl rfl rfl⟩
    | some j => exact keeps_resolveEA fun _ _ hu => keeps_storeChecked hu
  | dvd rx ry =>
    show Keeps s (execDvd rx ry s)
    unfold execDvd
    split <;> exact ⟨_, rfl, h.congr rfl rfl rfl⟩
  | input r =>
    show Keeps s (execInput r s)
    unfold execInput
    split <;> exact ⟨_, rfl, h.congr rfl rfl rfl⟩
  | trap code =>
    show Keeps s (execTrap code s)
    have hu : MemSide s { s.afterWrite 2 (s.pc + 1) with pc := 0 } :=
      .write 2 (s.pc + 1) h (lt_cap_of_lt (by decide)) (.inr (.inl rfl)) rfl rfl rfl
    simp only [execTrap, saveTrapReturn_eq, Access.andThen_ok]
    split
    · exact ⟨_, raiseFault_eq _ _, hu.faulted⟩
    · exact keeps_memRead hu fun _ _ ht => ⟨_, rfl, ht.congr rfl rfl rfl⟩

/-- So is what the word in IR does, whatever it is. -/
theorem decodeExecute_keeps (s : State) : Keeps s (decodeExecute s) := by
  unfold decodeExecute
  split
  · exact exec_keeps _ s
  · exact ⟨_, raiseFault_eq _ _, (MemSide.refl s).faulted⟩

/-- A fetch that succeeds is one access. -/
theorem fetch_keeps {s u : State} {w : Word} (h : fetch s = .ok w u) : MemSide s u := by
  simp only [fetch] at h
  split at h
  · next hr =>
    cases h
    exact ((MemSide.refl s).of_memRead_ok hr).congr rfl rfl rfl
  · cases h

/-- Every step answers a next state, and this is all it does to the memory side. -/
theorem step_keeps (s : State) : Keeps s (step s) := by
  show Keeps s (stepEngine s)
  unfold stepEngine
  cases hf : fetch s with
  | stalled u =>
    obtain ⟨rfl, -⟩ := fetch_stalled hf
    exact ⟨_, rfl, .keep rfl rfl rfl⟩
  | ok w u =>
    obtain ⟨t, ht, hm⟩ := decodeExecute_keeps u
    exact ⟨t, ht, (fetch_keeps hf).trans hm⟩

end Sys2Proof.Machine
end

