-- ==== Sys2Proof/Laws/HostOps.lean ====
section
/-! SUPPORT. What the host's operations can do, said once each. -/

namespace Sys2Proof.Machine

/-- A raw store in range (R87). -/
theorem rawStore_of_lt {s : State} {a : Nat} (v : Word) (h : a < s.cap) :
    rawStore a v s = ({ s with mem := s.mem.writeWord a v }, .ok) := by
  simp only [rawStore, storeWrite, if_pos h]

/-- A raw store out of range (R87). -/
theorem rawStore_of_ge {s : State} {a : Nat} (v : Word) (h : s.cap ≤ a) : rawStore a v s = (s, .outOfRange) := by
  simp only [rawStore, storeWrite, if_neg (Nat.not_lt.mpr h)]

/-- A raw store changes the store alone. -/
theorem rawStore_frame (a : Nat) (v : Word) (s : State) : ∃ m, (rawStore a v s).1 = { s with mem := m } := by
  by_cases h : a < s.cap
  · exact ⟨_, by rw [rawStore_of_lt v h]⟩
  · exact ⟨s.mem, by rw [rawStore_of_ge v (Nat.le_of_not_lt h)]⟩

/-- So does a list of them (R315 step 2). -/
theorem rawStores_frame (image : List (Nat × Word)) (s : State) : ∃ m, rawStores image s = { s with mem := m } := by
  induction image generalizing s with
  | nil => exact ⟨s.mem, rfl⟩
  | cons p image ih =>
    obtain ⟨m, hm⟩ := rawStore_frame p.1 p.2 s
    obtain ⟨n, hn⟩ := ih (rawStore p.1 p.2 s).1
    refine ⟨n, ?_⟩
    show rawStores image (rawStore p.1 p.2 s).1 = _
    rw [hn, hm]

/-- A slot number outside 0 to 12 names nothing (R45). -/
theorem Slot.ofNumber_none {n : Int} (h : ¬ (0 ≤ n ∧ n ≤ 12)) : Slot.ofNumber n = none := by
  unfold Slot.ofNumber
  repeat rw [if_neg (by omega)]

/-- A machine whose cache is empty is coherent (R74). -/
theorem State.Coherent.of_cache_nil {s : State} (h : s.cache = []) : s.Coherent :=
  ⟨by simp [h], by simp [h]⟩

end Sys2Proof.Machine
end

