-- ==== Sys2Proof/Laws/PerInstr.lean ====
section
/-! SUPPORT. The statement made of each instruction as syntax, one lemma per constructor: the top six bits of its word are
its opcode in the table (R101, R107). -/

namespace Sys2Proof.Laws.OpcodeOfEncoding

/-- The opcode field of a well-formed instruction's word is its opcode. -/
def Statement (i : Instr) : Prop := i.wf = true → ∀ lr, (opField (encode lr i)).toNat = i.opcode

theorem hlt : Statement (.hlt) :=
  fun _ _ => opField_encWord (by decide) (by decide) (by decide) (by decide) (by decide)

theorem ldr (r : GReg) (ix : Option XReg) (ind : Bool) (addr : Nat) : Statement (.ldr r ix ind addr) :=
  fun h _ => opField_encWord (by decide) r.number_lt (XReg.number_lt ix) (indNumber_lt ind) (fits5_iff.mp h)

theorem str (r : GReg) (ix : Option XReg) (ind : Bool) (addr : Nat) : Statement (.str r ix ind addr) :=
  fun h _ => opField_encWord (by decide) r.number_lt (XReg.number_lt ix) (indNumber_lt ind) (fits5_iff.mp h)

theorem lda (r : GReg) (ix : Option XReg) (ind : Bool) (addr : Nat) : Statement (.lda r ix ind addr) :=
  fun h _ => opField_encWord (by decide) r.number_lt (XReg.number_lt ix) (indNumber_lt ind) (fits5_iff.mp h)

theorem amr (r : GReg) (ix : Option XReg) (ind : Bool) (addr : Nat) : Statement (.amr r ix ind addr) :=
  fun h _ => opField_encWord (by decide) r.number_lt (XReg.number_lt ix) (indNumber_lt ind) (fits5_iff.mp h)

theorem smr (r : GReg) (ix : Option XReg) (ind : Bool) (addr : Nat) : Statement (.smr r ix ind addr) :=
  fun h _ => opField_encWord (by decide) r.number_lt (XReg.number_lt ix) (indNumber_lt ind) (fits5_iff.mp h)

theorem air (r : GReg) (imm : Nat) : Statement (.air r imm) :=
  fun h _ => opField_encWord (by decide) r.number_lt (by decide) (by decide) (fits5_iff.mp h)

theorem sir (r : GReg) (imm : Nat) : Statement (.sir r imm) :=
  fun h _ => opField_encWord (by decide) r.number_lt (by decide) (by decide) (fits5_iff.mp h)

theorem jz (r : GReg) (ix : Option XReg) (ind : Bool) (addr : Nat) : Statement (.jz r ix ind addr) :=
  fun h _ => opField_encWord (by decide) r.number_lt (XReg.number_lt ix) (indNumber_lt ind) (fits5_iff.mp h)

theorem jne (r : GReg) (ix : Option XReg) (ind : Bool) (addr : Nat) : Statement (.jne r ix ind addr) :=
  fun h _ => opField_encWord (by decide) r.number_lt (XReg.number_lt ix) (indNumber_lt ind) (fits5_iff.mp h)

theorem jcc (c : Cond) (ix : Option XReg) (ind : Bool) (addr : Nat) : Statement (.jcc c ix ind addr) :=
  fun h _ => opField_encWord (by decide) c.number_lt (XReg.number_lt ix) (indNumber_lt ind) (fits5_iff.mp h)

theorem jma (ix : Option XReg) (ind : Bool) (addr : Nat) : Statement (.jma ix ind addr) :=
  fun h _ => opField_encWord (by decide) (by decide) (XReg.number_lt ix) (indNumber_lt ind) (fits5_iff.mp h)

theorem jsr (ix : Option XReg) (ind : Bool) (addr : Nat) : Statement (.jsr ix ind addr) :=
  fun h _ => opField_encWord (by decide) (by decide) (XReg.number_lt ix) (indNumber_lt ind) (fits5_iff.mp h)

theorem rfs (imm : Nat) : Statement (.rfs imm) :=
  fun h _ => opField_encWord (by decide) (by decide) (by decide) (by decide) (fits5_iff.mp h)

theorem sob (r : GReg) (ix : Option XReg) (ind : Bool) (addr : Nat) : Statement (.sob r ix ind addr) :=
  fun h _ => opField_encWord (by decide) r.number_lt (XReg.number_lt ix) (indNumber_lt ind) (fits5_iff.mp h)

theorem jge (r : GReg) (ix : Option XReg) (ind : Bool) (addr : Nat) : Statement (.jge r ix ind addr) :=
  fun h _ => opField_encWord (by decide) r.number_lt (XReg.number_lt ix) (indNumber_lt ind) (fits5_iff.mp h)

theorem mlt (rx ry : GReg) : Statement (.mlt rx ry) :=
  fun _ _ => opField_encWord (by decide) rx.number_lt ry.number_lt (by decide) (by decide)

theorem dvd (rx ry : GReg) : Statement (.dvd rx ry) :=
  fun _ _ => opField_encWord (by decide) rx.number_lt ry.number_lt (by decide) (by decide)

theorem trr (rx ry : GReg) : Statement (.trr rx ry) :=
  fun _ _ => opField_encWord (by decide) rx.number_lt ry.number_lt (by decide) (by decide)

theorem and (rx ry : GReg) : Statement (.and rx ry) :=
  fun _ _ => opField_encWord (by decide) rx.number_lt ry.number_lt (by decide) (by decide)

theorem orr (rx ry : GReg) : Statement (.orr rx ry) :=
  fun _ _ => opField_encWord (by decide) rx.number_lt ry.number_lt (by decide) (by decide)

theorem not (rx : GReg) : Statement (.not rx) :=
  fun _ _ => opField_encWord (by decide) rx.number_lt (by decide) (by decide) (by decide)

theorem src (r : GReg) (dir : Direction) (count : Nat) : Statement (.src r dir count) :=
  fun h _ => opField_encWord (by decide) r.number_lt (dir.number_lt _) (by decide) (fits5_iff.mp h)

theorem rrc (r : GReg) (dir : Direction) (count : Nat) : Statement (.rrc r dir count) :=
  fun h _ => opField_encWord (by decide) r.number_lt (dir.number_lt _) (by decide) (fits5_iff.mp h)

theorem trap (code : Nat) : Statement (.trap code) :=
  fun h _ => opField_encWord (by decide) (by decide) (by decide) (by decide) (fits5_iff.mp h)

theorem ldx (ix : Option XReg) (ind : Bool) (addr : Nat) : Statement (.ldx ix ind addr) :=
  fun h _ => opField_encWord (by decide) (by decide) (XReg.number_lt ix) (indNumber_lt ind) (fits5_iff.mp h)

theorem stx (ix : Option XReg) (ind : Bool) (addr : Nat) : Statement (.stx ix ind addr) :=
  fun h _ => opField_encWord (by decide) (by decide) (XReg.number_lt ix) (indNumber_lt ind) (fits5_iff.mp h)

theorem input (r : GReg) : Statement (.input r) :=
  fun _ _ => opField_encWord (by decide) r.number_lt (by decide) (by decide) (by decide)

theorem output (r : GReg) (dev : Nat) : Statement (.output r dev) :=
  fun h _ => opField_encWord (by decide) r.number_lt (by decide) (by decide) (fits5_iff.mp h)

end Sys2Proof.Laws.OpcodeOfEncoding
end

