-- ==== Sys2Proof/Tests/Slice0.lean ====
section
/-! SUPPORT. The model's own tests: ill-formed terms are refused, words written out from the spec's encodings decode as
they should, single steps give what 95_test_vectors.md prints, and each statement's hypotheses are met by a concrete
state. -/

namespace Sys2Proof.Tests

open Sys2Proof.Machine

/-! ## Well-formedness: 32 does not fit the 5-bit field -/

/-- Every instruction with a 5-bit field is refused with 32 in it. -/
theorem test_wf_refuses_32 :
    ([.ldr .r0 none false 32, .str .r0 none false 32, .lda .r0 none false 32, .amr .r0 none false 32,
      .smr .r0 none false 32, .air .r0 32, .sir .r0 32, .jz .r0 none false 32, .jne .r0 none false 32,
      .jcc .equal none false 32, .jma none false 32, .jsr none false 32, .rfs 32, .sob .r0 none false 32,
      .jge .r0 none false 32, .src .r0 .left 32, .rrc .r0 .right 32, .trap 32, .ldx (some .x1) false 32,
      .stx (some .x1) false 32, .output .r0 32] : List Instr).any Instr.wf = false := by
  decide

/-- 31 fits, and the instructions with no such field are well formed. -/
theorem test_wf_accepts :
    ([.ldr .r3 (some .x3) true 31, .trap 31, .output .r3 31, .hlt, .mlt .r3 .r3, .not .r0, .input .r3] :
      List Instr).all Instr.wf = true := by
  decide

/-! ## Decoding: `oooooo rr xx i aaaaa`, written out from 30_encoding.md -/

theorem test_decode_hlt : decode .bit6 0b000000_10_11_1_00101 = .ok .hlt := by rfl
theorem test_decode_ldr : decode .bit6 0b000001_10_01_0_01010 = .ok (.ldr .r2 (some .x1) false 10) := by rfl
theorem test_decode_str : decode .bit6 0b000010_00_00_0_11110 = .ok (.str .r0 none false 30) := by rfl
theorem test_decode_lda : decode .bit6 0b000011_01_10_0_00001 = .ok (.lda .r1 (some .x2) false 1) := by rfl
theorem test_decode_amr : decode .bit6 0b000100_11_11_1_11111 = .ok (.amr .r3 (some .x3) true 31) := by rfl
theorem test_decode_smr : decode .bit6 0b000101_01_00_0_11110 = .ok (.smr .r1 none false 30) := by rfl
theorem test_decode_air : decode .bit6 0b000110_10_01_1_11111 = .ok (.air .r2 31) := by rfl
theorem test_decode_sir : decode .bit6 0b000111_00_00_0_00001 = .ok (.sir .r0 1) := by rfl
theorem test_decode_jz : decode .bit6 0b001000_00_00_0_10100 = .ok (.jz .r0 none false 20) := by rfl
theorem test_decode_jne : decode .bit6 0b001001_01_00_1_11100 = .ok (.jne .r1 none true 28) := by rfl
theorem test_decode_jcc : decode .bit6 0b001010_11_01_0_00000 = .ok (.jcc .equal (some .x1) false 0) := by rfl
theorem test_decode_jma : decode .bit6 0b001011_11_00_1_00010 = .ok (.jma none true 2) := by rfl
theorem test_decode_jsr : decode .bit6 0b001100_00_01_0_00000 = .ok (.jsr (some .x1) false 0) := by rfl
theorem test_decode_rfs : decode .bit6 0b001101_00_00_0_00111 = .ok (.rfs 7) := by rfl
theorem test_decode_sob : decode .bit6 0b001110_01_00_1_11100 = .ok (.sob .r1 none true 28) := by rfl
theorem test_decode_jge : decode .bit6 0b001111_10_01_0_00101 = .ok (.jge .r2 (some .x1) false 5) := by rfl
theorem test_decode_mlt : decode .bit6 0b010000_00_10_1_00011 = .ok (.mlt .r0 .r2) := by rfl
theorem test_decode_dvd : decode .bit6 0b010001_11_00_0_00000 = .ok (.dvd .r3 .r0) := by rfl
theorem test_decode_trr : decode .bit6 0b010010_00_01_0_00000 = .ok (.trr .r0 .r1) := by rfl
theorem test_decode_and : decode .bit6 0b010011_00_01_1_11111 = .ok (.and .r0 .r1) := by rfl
theorem test_decode_orr : decode .bit6 0b010100_10_11_0_00000 = .ok (.orr .r2 .r3) := by rfl
theorem test_decode_not : decode .bit6 0b010101_01_11_0_00000 = .ok (.not .r1) := by rfl
theorem test_decode_src_left : decode .bit6 0b011001_00_01_0_00011 = .ok (.src .r0 .left 3) := by rfl
theorem test_decode_src_right : decode .bit6 0b011001_01_10_0_00100 = .ok (.src .r1 .right 4) := by rfl
theorem test_decode_rrc : decode .bit6 0b011010_10_01_1_00100 = .ok (.rrc .r2 .left 4) := by rfl
theorem test_decode_src_bit7 : decode .bit7 0b011001_01_10_0_00100 = .ok (.src .r1 .left 4) := by rfl
theorem test_decode_rrc_bit7 : decode .bit7 0b011010_10_01_1_00100 = .ok (.rrc .r2 .right 4) := by rfl
theorem test_decode_trap : decode .bit6 0b011110_11_11_1_00001 = .ok (.trap 1) := by rfl
theorem test_decode_ldx : decode .bit6 0b100001_10_11_1_11110 = .ok (.ldx (some .x3) true 30) := by rfl
theorem test_decode_stx : decode .bit6 0b100010_00_00_0_11101 = .ok (.stx none false 29) := by rfl
theorem test_decode_input : decode .bit6 0b110001_11_00_0_11111 = .ok (.input .r3) := by rfl
theorem test_decode_output : decode .bit6 0b110010_01_00_0_00010 = .ok (.output .r1 2) := by rfl
theorem test_decode_illegal_22 : decode .bit6 0x5800 = .error (.illegalOpcode 22) := by rfl
theorem test_decode_illegal_63 : decode .bit6 0xFFFF = .error (.illegalOpcode 63) := by rfl

/-! ## Single steps: the vectors of 95_test_vectors.md, by their number there -/

/-- A machine just loaded: the words raw-stored after reset, then the registers set. -/
def place (pc : Word) (r : GRegs) (x : XRegs) (cc : BitVec 4) (words : List (Nat × Word)) : State :=
  { rawStores words State.reset with pc := pc, r := r, x := x, cc := cc }

/-- The machine with words in the input queue. -/
def withInput (words : List Word) (s : State) : State := { s with inq := words }

/-- The next state, if there is one. -/
def nextOf (r : Result) : Option State :=
  match r with
  | .next t => some t
  | .fault _ => none
  | .refused _ => none

/-- One step. -/
def stepped (s : State) : Option State := nextOf (step s)

/-- V3: LDR 1,2,31,I. -/
theorem test_ldr_V3 :
    ((stepped (place 100 ⟨0, 0, 0, 0⟩ ⟨0, 200, 0⟩ 0 [(100, 0x05BF), (231, 0x012C), (300, 7)])).map
      fun t => (t.r.r1, t.pc, t.mar, t.mbr, t.cc)) = some (7, 101, 0x012C, 7, 0) := by
  decide

/-- V4: LDR 0,1,0. -/
theorem test_ldr_V4 :
    ((stepped (place 100 ⟨0x5555, 0, 0, 0⟩ ⟨0x0800, 0, 0⟩ 0 [(100, 0x0440)])).map
      fun t => (t.outcome, t.pc, t.mar, t.mbr, t.cc)) = some (.stall, 100, 0x0800, 0x0440, 0) := by
  decide

/-- V10: STR 2,0,28. -/
theorem test_str_V10 :
    ((stepped (place 100 ⟨0, 0, 1, 0⟩ ⟨0, 0, 0⟩ 0 [(100, 0x0A1C)])).map
      fun t => (t.pc, t.word 28, t.mar, t.mbr, t.cc)) = some (101, 1, 28, 1, 0) := by
  decide

/-- V9: STR 2,0,27. -/
theorem test_str_V9 :
    ((stepped (place 100 ⟨0, 0, 1, 0⟩ ⟨0, 0, 0⟩ 0 [(100, 0x0A1B)])).map
      fun t => (t.pc, t.mfr, t.word 4, t.mar, t.mbr, t.cc)) = some (1, 1, 101, 4, 101, 0) := by
  decide

/-- V15: LDA 1,2,1. -/
theorem test_lda_V15 :
    ((stepped (place 100 ⟨0, 0x1111, 0, 0⟩ ⟨0, 0xFFFF, 0⟩ 0 [(100, 0x0D81)])).map
      fun t => (t.r.r1, t.pc, t.mar, t.mbr, t.cc)) = some (0, 101, 100, 0x0D81, 0) := by
  decide

/-- V16: LDA 0,1,5,I. -/
theorem test_lda_V16 :
    ((stepped (place 100 ⟨0, 0, 0, 0⟩ ⟨40, 0, 0⟩ 0 [(45, 0xFFFF), (100, 0x0C65)])).map
      fun t => (t.r.r0, t.pc, t.mar, t.mbr, t.cc)) = some (0xFFFF, 101, 45, 0xFFFF, 0) := by
  decide

/-- V18: LDX 3,30,I. -/
theorem test_ldx_V18 :
    ((stepped (place 100 ⟨0, 0, 0, 0⟩ ⟨0, 0, 0⟩ 0 [(30, 0x0258), (100, 0x84FE), (600, 66)])).map
      fun t => (t.x.x3, t.pc, t.mar, t.mbr, t.cc)) = some (66, 101, 0x0258, 66, 0) := by
  decide

/-- V20: LDX 0,28. -/
theorem test_ldx_V20 :
    ((stepped (place 100 ⟨0, 0, 0, 0⟩ ⟨0, 0, 0⟩ 0 [(28, 0x03E8), (100, 0x841C)])).map
      fun t => (t.pc, t.mar, t.mbr, t.cc)) = some (101, 28, 0x03E8, 0) := by
  decide

/-- V24: STX 1,28,I. -/
theorem test_stx_V24 :
    ((stepped (place 100 ⟨0, 0, 0, 0⟩ ⟨170, 0, 0⟩ 0 [(28, 0x02BC), (100, 0x887C)])).map
      fun t => (t.pc, t.word 700, t.mar, t.mbr, t.cc)) = some (101, 170, 0x02BC, 170, 0) := by
  decide

/-- V23: STX 0,29. -/
theorem test_stx_V23 :
    ((stepped (place 100 ⟨0, 0, 0, 0⟩ ⟨0, 0, 0⟩ 0 [(100, 0x881D)])).map
      fun t => (t.outcome, t.pc, t.mar, t.mbr, t.cc)) = some (.stall, 100, 100, 0x881D, 0) := by
  decide

/-- LDX 1,28 and STX 1,28 with `LDX_STX_INDEXED` (R141): the address is X1 + 28 = 128, by hand. -/
theorem test_ldx_stx_indexed :
    ((stepped { place 100 ⟨0, 0, 0, 0⟩ ⟨100, 0, 0⟩ 0 [(28, 7), (128, 9), (100, 0x845C)] with
      readings := ⟨true, .bit6⟩ }).map fun t => (t.x.x1, t.pc, t.mar)) = some (9, 101, 128) ∧
    ((stepped { place 100 ⟨0, 0, 0, 0⟩ ⟨100, 0, 0⟩ 0 [(100, 0x885C)] with
      readings := ⟨true, .bit6⟩ }).map fun t => (t.word 128, t.word 28, t.pc)) = some (100, 0, 101) := by
  decide

/-- V30: AMR 0,0,31. -/
theorem test_amr_V30 :
    ((stepped (place 100 ⟨5, 0, 0, 0⟩ ⟨0, 0, 0⟩ 1 [(31, 7), (100, 0x101F)])).map
      fun t => (t.r.r0, t.cc, t.pc, t.mar, t.mbr)) = some (12, 0, 101, 31, 7) := by
  decide

/-- V33: AMR 0,0,31. -/
theorem test_amr_V33 :
    ((stepped (place 100 ⟨0x8000, 0, 0, 0⟩ ⟨0, 0, 0⟩ 0 [(31, 0x8000), (100, 0x101F)])).map
      fun t => (t.r.r0, t.cc, t.pc, t.mar, t.mbr)) = some (0, 4, 101, 31, 0x8000) := by
  decide

/-- V38: SMR 1,0,30. -/
theorem test_smr_V38 :
    ((stepped (place 100 ⟨0, 0, 0, 0⟩ ⟨0, 0, 0⟩ 0 [(30, 0x8000), (100, 0x151E)])).map
      fun t => (t.r.r1, t.cc, t.pc, t.mar, t.mbr)) = some (0x8000, 8, 101, 30, 0x8000) := by
  decide

/-- V36: SMR 1,0,30. -/
theorem test_smr_V36 :
    ((stepped (place 100 ⟨0, 0x8000, 0, 0⟩ ⟨0, 0, 0⟩ 0 [(30, 1), (100, 0x151E)])).map
      fun t => (t.r.r1, t.cc, t.pc, t.mar, t.mbr)) = some (0x7FFF, 4, 101, 30, 1) := by
  decide

/-- V42: AIR 2,31. -/
theorem test_air_V42 :
    ((stepped (place 100 ⟨0, 0, 0xFFF0, 0⟩ ⟨0, 0, 0⟩ 4 [(100, 0x1A1F)])).map
      fun t => (t.r.r2, t.cc, t.pc, t.mar, t.mbr)) = some (15, 0, 101, 100, 0x1A1F) := by
  decide

/-- V44: AIR 0,31. -/
theorem test_air_V44 :
    ((stepped (place 100 ⟨0x7FE1, 0, 0, 0⟩ ⟨0, 0, 0⟩ 0 [(100, 0x181F)])).map
      fun t => (t.r.r0, t.cc, t.pc, t.mar, t.mbr)) = some (0x8000, 8, 101, 100, 0x181F) := by
  decide

/-- V46: SIR 0,1. -/
theorem test_sir_V46 :
    ((stepped (place 100 ⟨0, 0, 0, 0⟩ ⟨0, 0, 0⟩ 0 [(100, 0x1C01)])).map
      fun t => (t.r.r0, t.pc, t.mar, t.mbr, t.cc)) = some (0xFFFF, 101, 100, 0x1C01, 0) := by
  decide

/-- V47: SIR 3,31. -/
theorem test_sir_V47 :
    ((stepped (place 100 ⟨0, 0, 0, 0x801E⟩ ⟨0, 0, 0⟩ 0 [(100, 0x1F1F)])).map
      fun t => (t.r.r3, t.cc, t.pc, t.mar, t.mbr)) = some (0x7FFF, 4, 101, 100, 0x1F1F) := by
  decide

/-- V50: JZ 0,0,20. -/
theorem test_jz_V50 :
    ((stepped (place 100 ⟨0, 0, 0, 0⟩ ⟨0, 0, 0⟩ 0 [(100, 0x2014)])).map
      fun t => (t.pc, t.mar, t.mbr, t.cc)) = some (20, 100, 0x2014, 0) := by
  decide

/-- V51: JZ 0,0,20. -/
theorem test_jz_V51 :
    ((stepped (place 100 ⟨1, 0, 0, 0⟩ ⟨0, 0, 0⟩ 0 [(100, 0x2014)])).map
      fun t => (t.pc, t.mar, t.mbr, t.cc)) = some (101, 100, 0x2014, 0) := by
  decide

/-- V52: JNE 1,0,28,I. -/
theorem test_jne_V52 :
    ((stepped (place 100 ⟨0, 0x8000, 0, 0⟩ ⟨0, 0, 0⟩ 0 [(28, 0x012C), (100, 0x253C)])).map
      fun t => (t.pc, t.mar, t.mbr, t.cc)) = some (0x012C, 28, 0x012C, 0) := by
  decide

/-- V53: JNE 1,0,28,I. -/
theorem test_jne_V53 :
    ((stepped (place 100 ⟨0, 0, 0, 0⟩ ⟨0, 0, 0⟩ 0 [(28, 0x012C), (100, 0x253C)])).map
      fun t => (t.pc, t.mar, t.mbr, t.cc)) = some (101, 28, 0x012C, 0) := by
  decide

/-- V58: JCC 3,1,0. -/
theorem test_jcc_V58 :
    ((stepped (place 100 ⟨0, 0, 0, 0⟩ ⟨0x01F4, 0, 0⟩ 1 [(100, 0x2B40)])).map
      fun t => (t.pc, t.mar, t.mbr, t.cc)) = some (0x01F4, 100, 0x2B40, 1) := by
  decide

/-- V60: JCC 3,0,9 (CC=9 set by host). -/
theorem test_jcc_V60 :
    ((stepped (place 100 ⟨0, 0, 0, 0⟩ ⟨0, 0, 0⟩ 9 [(100, 0x2B09)])).map
      fun t => (t.pc, t.mar, t.mbr, t.cc)) = some (101, 100, 0x2B09, 9) := by
  decide

/-- V65: JMA 2,31. -/
theorem test_jma_V65 :
    ((stepped (place 100 ⟨0, 0, 0, 0⟩ ⟨0, 0xFFFF, 0⟩ 0 [(100, 0x2C9F)])).map
      fun t => (t.pc, t.mar, t.mbr, t.cc)) = some (30, 100, 0x2C9F, 0) := by
  decide

/-- V63: JMA 0,2,I. -/
theorem test_jma_V63 :
    ((stepped (place 100 ⟨0, 0, 0, 0⟩ ⟨0, 0, 0⟩ 0 [(2, 41), (100, 0x2C22)])).map
      fun t => (t.pc, t.mar, t.mbr, t.cc)) = some (41, 2, 41, 0) := by
  decide

/-- V66: JSR 1,0. -/
theorem test_jsr_V66 :
    ((stepped (place 100 ⟨0, 0, 0, 0x7777⟩ ⟨0x0258, 0, 0⟩ 0 [(100, 0x3040)])).map
      fun t => (t.r.r3, t.pc, t.mar, t.mbr, t.cc)) = some (101, 0x0258, 100, 0x3040, 0) := by
  decide

/-- V67: JSR 0,31,I. -/
theorem test_jsr_V67 :
    ((stepped (place 100 ⟨0, 0, 0, 0⟩ ⟨0, 0, 0⟩ 0 [(31, 50), (100, 0x303F)])).map
      fun t => (t.r.r3, t.pc, t.mar, t.mbr, t.cc)) = some (101, 50, 31, 50, 0) := by
  decide

/-- V68: RFS 7. -/
theorem test_rfs_V68 :
    ((stepped (place 100 ⟨0x9999, 0, 0, 101⟩ ⟨0, 0, 0⟩ 0 [(100, 0x3407)])).map
      fun t => (t.r.r0, t.pc, t.mar, t.mbr, t.cc)) = some (7, 101, 100, 0x3407, 0) := by
  decide

/-- V69: RFS 0. -/
theorem test_rfs_V69 :
    ((stepped (place 100 ⟨0x9999, 0, 0, 0x1388⟩ ⟨0, 0, 0⟩ 0 [(100, 0x3400)])).map
      fun t => (t.r.r0, t.pc, t.mar, t.mbr, t.cc)) = some (0, 0x1388, 100, 0x3400, 0) := by
  decide

/-- V73: SOB 1,0,28,I. -/
theorem test_sob_V73 :
    ((stepped (place 100 ⟨0, 0x8000, 0, 0⟩ ⟨0, 0, 0⟩ 0 [(28, 90), (100, 0x393C)])).map
      fun t => (t.r.r1, t.pc, t.mar, t.mbr, t.cc)) = some (0x7FFF, 90, 28, 90, 0) := by
  decide

/-- V72: SOB 1,0,28,I. -/
theorem test_sob_V72 :
    ((stepped (place 100 ⟨0, 0, 0, 0⟩ ⟨0, 0, 0⟩ 0 [(28, 90), (100, 0x393C)])).map
      fun t => (t.r.r1, t.pc, t.mar, t.mbr, t.cc)) = some (0xFFFF, 101, 28, 90, 0) := by
  decide

/-- V76: JGE 2,1,5. -/
theorem test_jge_V76 :
    ((stepped (place 100 ⟨0, 0, 0x7FFF, 0⟩ ⟨0x012C, 0, 0⟩ 0 [(100, 0x3E45)])).map
      fun t => (t.pc, t.mar, t.mbr, t.cc)) = some (0x0131, 100, 0x3E45, 0) := by
  decide

/-- V77: JGE 2,1,5. -/
theorem test_jge_V77 :
    ((stepped (place 100 ⟨0, 0, 0x8000, 0⟩ ⟨0x012C, 0, 0⟩ 0 [(100, 0x3E45)])).map
      fun t => (t.pc, t.mar, t.mbr, t.cc)) = some (101, 100, 0x3E45, 0) := by
  decide

/-- V80: MLT 0,2. -/
theorem test_mlt_V80 :
    ((stepped (place 100 ⟨0x012C, 0, 0x012C, 0⟩ ⟨0, 0, 0⟩ 1 [(100, 0x4080)])).map
      fun t => (t.r.r0, t.r.r1, t.cc, t.pc, t.mar, t.mbr)) = some (1, 0x5F90, 0, 101, 100, 0x4080) := by
  decide

/-- V85: MLT 3,1. -/
theorem test_mlt_V85 :
    ((stepped (place 100 ⟨0x1111, 0x012C, 0, 0x012C⟩ ⟨0, 0, 0⟩ 0 [(100, 0x4340)])).map
      fun t => (t.r.r3, t.pc, t.mar, t.mbr, t.cc)) = some (1, 101, 100, 0x4340, 0) := by
  decide

/-- V92: DVD 0,2. -/
theorem test_dvd_V92 :
    ((stepped (place 100 ⟨0x8000, 0x5555, 0xFFFF, 0⟩ ⟨0, 0, 0⟩ 1 [(100, 0x4480)])).map
      fun t => (t.r.r1, t.cc, t.pc, t.mar, t.mbr)) = some (0, 0, 101, 100, 0x4480) := by
  decide

/-- V88: DVD 0,2. -/
theorem test_dvd_V88 :
    ((stepped (place 100 ⟨7, 9, 0, 0⟩ ⟨0, 0, 0⟩ 0 [(100, 0x4480)])).map
      fun t => (t.cc, t.pc, t.mar, t.mbr)) = some (2, 101, 100, 0x4480) := by
  decide

/-- V98: TRR 0,1. -/
theorem test_trr_V98 :
    ((stepped (place 100 ⟨5, 6, 0, 0⟩ ⟨0, 0, 0⟩ 8 [(100, 0x4840)])).map
      fun t => (t.cc, t.pc, t.mar, t.mbr)) = some (0, 101, 100, 0x4840) := by
  decide

/-- V99: TRR 2,2. -/
theorem test_trr_V99 :
    ((stepped (place 100 ⟨0, 0, 0x1234, 0⟩ ⟨0, 0, 0⟩ 0 [(100, 0x4A80)])).map
      fun t => (t.cc, t.pc, t.mar, t.mbr)) = some (1, 101, 100, 0x4A80) := by
  decide

/-- V104: AND 0,1 with i=1 and addr=31 (ignored). -/
theorem test_and_V104 :
    ((stepped (place 100 ⟨0xFF00, 0x0FF0, 0, 0⟩ ⟨0, 0, 0⟩ 0 [(100, 0x4C7F)])).map
      fun t => (t.r.r0, t.pc, t.mar, t.mbr, t.cc)) = some (0x0F00, 101, 100, 0x4C7F, 0) := by
  decide

/-- V101: ORR 2,3. -/
theorem test_orr_V101 :
    ((stepped (place 100 ⟨0, 0, 0xF000, 15⟩ ⟨0, 0, 0⟩ 0 [(100, 0x52C0)])).map
      fun t => (t.r.r2, t.pc, t.mar, t.mbr, t.cc)) = some (0xF00F, 101, 100, 0x52C0, 0) := by
  decide

/-- V102: NOT 1. -/
theorem test_not_V102 :
    ((stepped (place 100 ⟨0, 255, 0, 0⟩ ⟨0, 0, 0⟩ 0 [(100, 0x5500)])).map
      fun t => (t.r.r1, t.pc, t.mar, t.mbr, t.cc)) = some (0xFF00, 101, 100, 0x5500, 0) := by
  decide

/-- V116: SRC 0,16,R. -/
theorem test_src_V116 :
    ((stepped (place 100 ⟨0x8000, 0, 0, 0⟩ ⟨0, 0, 0⟩ 0 [(100, 0x6410)])).map
      fun t => (t.r.r0, t.pc, t.mar, t.mbr, t.cc)) = some (0xFFFF, 101, 100, 0x6410, 0) := by
  decide

/-- V118: SRC 0,16,L. -/
theorem test_src_V118 :
    ((stepped (place 100 ⟨0xFFFF, 0, 0, 0⟩ ⟨0, 0, 0⟩ 0 [(100, 0x6450)])).map
      fun t => (t.r.r0, t.pc, t.mar, t.mbr, t.cc)) = some (0, 101, 100, 0x6450, 0) := by
  decide

/-- V125: RRC 0,17,L. -/
theorem test_rrc_V125 :
    ((stepped (place 100 ⟨0x1234, 0, 0, 0⟩ ⟨0, 0, 0⟩ 0 [(100, 0x6851)])).map
      fun t => (t.r.r0, t.pc, t.mar, t.mbr, t.cc)) = some (0x2468, 101, 100, 0x6851, 0) := by
  decide

/-- V127: RRC 0,31,R. -/
theorem test_rrc_V127 :
    ((stepped (place 100 ⟨0x1234, 0, 0, 0⟩ ⟨0, 0, 0⟩ 0 [(100, 0x681F)])).map
      fun t => (t.r.r0, t.pc, t.mar, t.mbr, t.cc)) = some (0x2468, 101, 100, 0x681F, 0) := by
  decide

/-- V141: TRAP 8. -/
theorem test_trap_V141 :
    ((stepped (place 40 ⟨0, 0, 0, 0⟩ ⟨0, 0, 0⟩ 0 [(0, 7), (40, 0x7808)])).map
      fun t => (t.pc, t.word 2, t.mar, t.mbr, t.cc)) = some (15, 41, 0, 7, 0) := by
  decide

/-- V142: TRAP 9. -/
theorem test_trap_V142 :
    ((stepped (place 40 ⟨0, 0, 0, 0⟩ ⟨0, 0, 0⟩ 0 [(0, 7), (40, 0x7809)])).map
      fun t => (t.pc, t.mfr, t.word 2, t.word 4, t.mar, t.mbr, t.cc)) = some (1, 2, 41, 1, 4, 1, 0) := by
  decide

/-- V147: IN 0,0. -/
theorem test_in_V147 :
    ((stepped (withInput [65, 66] (place 32 ⟨0, 0, 0, 0⟩ ⟨0, 0, 0⟩ 0 [(32, 0xC400)]))).map
      fun t => (t.r.r0, t.pc, t.inq)) = some (65, 33, [66]) := by
  decide

/-- V148: IN 0,0. -/
theorem test_in_V148 :
    ((stepped (place 32 ⟨0x1111, 0, 0, 0⟩ ⟨0, 0, 0⟩ 0 [(32, 0xC400)])).map
      fun t => (t.outcome, t.pc, t.mar, t.mbr, t.cc)) = some (.await, 32, 32, 0xC400, 0) := by
  decide

/-- V155: (opcode 22). -/
theorem test_opcode_V155 :
    ((stepped (place 100 ⟨0, 0, 0, 0⟩ ⟨0, 0, 0⟩ 0 [(100, 0x5800)])).map
      fun t => (t.pc, t.mfr, t.word 4, t.mar, t.mbr, t.cc)) = some (1, 4, 101, 4, 101, 0) := by
  decide

/-- V159: HLT with low bits set. -/
theorem test_hlt_V159 :
    ((stepped (place 100 ⟨0, 0, 0, 0⟩ ⟨0, 0, 0x0BB8⟩ 0 [(100, 0x03FF)])).map
      fun t => (t.outcome, t.pc, t.mar, t.mbr, t.cc)) = some (.halt, 100, 100, 0x03FF, 0) := by
  decide

/-- V160: (fetch out of range). -/
theorem test_fetch_V160 :
    ((stepped (place 2048 ⟨0, 0, 0, 0⟩ ⟨0, 0, 0⟩ 0 [])).map
      fun t => (t.outcome, t.pc, t.mar, t.mbr, t.cc)) = some (.stall, 0x0800, 0x0800, 0, 0) := by
  decide

/-- V150: OUT in character mode, the id being an open parameter. -/
theorem test_out_V150 :
    (nextOf (exec (.output .r0 Config.devidChar) (place 100 ⟨0x0141, 0, 0, 0⟩ ⟨0, 0, 0⟩ 0 []))).map
      (fun t => (t.outs, t.pc)) = some ([.outChar 65], 101) := by
  have h : outEvents Config.devidChar 0x0141 = [.outChar 65] := if_pos rfl
  show some (State.reset.outs ++ outEvents Config.devidChar 0x0141, (100 : Word) + 1) = _
  rw [h]
  decide

/-- H1: `executeRaw(0x1801)` has no fetch: MAR and the cache are untouched. -/
theorem test_executeRaw_H1 :
    (nextOf (executeRaw 0x1801 (place 100 ⟨0x7FFF, 0, 0, 0⟩ ⟨0, 0, 0⟩ 0 []))).map
      (fun t => (t.r.r0, t.cc, t.pc, t.mar, t.cache)) =
    some (0x8000, 8, 101, 0, []) := by
  decide

/-- MC6: a raw store against a cached line, and the engine's write that repairs it. -/
theorem test_cache_MC6 :
    ((cachedRead (rawStore 300 1 State.reset).1 300).bind fun p =>
      (cachedRead (rawStore 300 2 p.2).1 300).bind fun q =>
        (cachedWrite q.2 300 3).bind fun u => (cachedRead u 300).map fun r => (p.1, q.1, r.1)) = some (1, 1, 3) := by
  decide

/-! ## `withFetchWord` and `decodeTableWord` -/

/-- The row of TRAP with every other bit 0, as the host writes it. -/
theorem test_decodeTableWord : decodeTableWord 16 0x7800 = some (.trap 0) := by rfl

/-- The placed word is what the first step after reset fetches and runs. -/
theorem test_withFetchWord :
    (stepped (State.reset.withFetchWord 16 0x0F1F)).map (fun t => (t.ir, t.r.r3, t.pc)) = some (0x0F1F, 31, 1) := by
  decide

/-! ## Each statement's hypotheses are met by a concrete state, at the ends of their ranges -/

/-- A coherent machine with a cached line, pointers to the last word and past it, and index registers to match. -/
def sample : State :=
  { place 100 ⟨0xFFFB, 2, 0, 51⟩ ⟨2016, 2017, 0xFFFF⟩ 8
      [(0, 7), (20, 300), (28, 27), (29, 28), (30, 2047), (31, 2048), (300, 9), (2047, 0x1801)] with
    cache := [⟨20, 300⟩] }

/-- The same machine with the other value of each open reading (R9). -/
def otherReadings : State := { sample with readings := ⟨true, .bit7⟩ }

theorem test_sample_coherent : sample.Coherent := by decide
theorem test_sample_invariant : sample.MemoryInvariant := ⟨by decide, by decide, by decide, by decide⟩

theorem test_witness_DecodeUndoesEncode :
    (Instr.ldr .r3 (some .x3) true 31).wf = true ∧ (Instr.src .r1 .left 0).wf = true := by decide

theorem test_witness_EncodeKeepsReadBits : decode .bit6 0x6584 = .ok (.src .r1 .right 4) := by rfl

theorem test_witness_IgnoredBitsDoNotMatter :
    decode .bit6 0x6584 = .ok (.src .r1 .right 4) ∧
      (0x6504 : Word) &&& (Instr.src .r1 .right 4).readBits .bit6 = 0x6584 &&& (Instr.src .r1 .right 4).readBits .bit6 :=
  ⟨rfl, by decide⟩

/-- Opcodes 0, 21 and 50 are in the table, 22 and 63 are not. -/
theorem test_witness_ExactlyTheTableOpcodesDecode :
    (0x03FF : Word).toNat / 1024 ∈ tableOpcodes ∧ (0x57FF : Word).toNat / 1024 ∈ tableOpcodes ∧
      (0xC800 : Word).toNat / 1024 ∈ tableOpcodes ∧ (0x5800 : Word).toNat / 1024 ∉ tableOpcodes ∧
      (0xFFFF : Word).toNat / 1024 ∉ tableOpcodes := by decide

/-- At the last address of the store. -/
theorem test_witness_StepRunsDecodedInstruction :
    decode .bit6 0x1801 = .ok (.air .r0 1) ∧ ({ sample with pc := 2047 } : State).Coherent ∧
      (2047 : Word).toNat < ({ sample with pc := 2047 } : State).cap ∧
      ({ sample with pc := 2047 } : State).word 2047 = 0x1801 := ⟨rfl, by decide, by decide, by decide⟩

/-- PC 2047 is in range and 2048 is not. -/
theorem test_witness_FetchReadsWordAtPC :
    sample.Coherent ∧ (2047 : Word).toNat < sample.cap ∧ sample.cap ≤ (2048 : Word).toNat := by decide

theorem test_witness_IllegalOpcodeFaults :
    (0x5800 : Word).toNat / 1024 ∉ tableOpcodes ∧
      ∃ u, fetch (place 100 ⟨0, 0, 0, 0⟩ ⟨0, 0, 0⟩ 0 [(100, 0x5800)]) = .ok 0x5800 u :=
  ⟨by decide, _, rfl⟩

/-- Direct; indirect through the last word (X1 + 31 = 2047); and one past it (X2 + 31 = 2048), which stalls. -/
theorem test_witness_ResolverComputesEA :
    sample.Coherent ∧ sample.CanResolve none false 0 ∧ sample.CanResolve (some .x1) true 31 ∧
      ¬ sample.CanResolve (some .x2) true 31 :=
  ⟨by decide, fun h => absurd h (by decide), fun _ => by decide, fun h => absurd (h rfl) (by decide)⟩

/-- Addresses 0 and 2047, direct and indexed (also for LdaLoadsAddress). -/
theorem test_witness_LdrLoadsWord :
    sample.Coherent ∧ sample.CanResolve (some .x1) false 31 ∧ sample.ea (some .x1) false 31 = 2047 ∧
      sample.CanResolve none false 0 ∧ sample.ea none false 0 = 0 ∧ sample.ea (some .x1) false 31 < sample.cap :=
  ⟨by decide, fun h => absurd h (by decide), by decide, fun h => absurd h (by decide), by decide, by decide⟩

/-- LDX's: an indirect load of the last word, and under the other reading a direct, indexed one. -/
theorem test_witness_LdxLoadsIndexRegister :
    sample.Coherent ∧ sample.readings.ldxStxIndexed = false ∧ sample.CanResolve none true 30 ∧
      sample.ea none true 30 = 2047 ∧ sample.ea none true 30 < sample.cap ∧
      otherReadings.Coherent ∧ otherReadings.readings.ldxStxIndexed = true ∧
      otherReadings.CanResolve (some .x1) false 31 ∧ otherReadings.ea (some .x1) false 31 < otherReadings.cap :=
  ⟨by decide, rfl, fun _ => by decide, by decide, by decide, by decide, rfl, fun h => absurd h (by decide), by decide⟩

/-- A store at 28 and one at the last address. -/
theorem test_witness_StrStoresWord :
    resolveEA none false 28 sample = .ok 28 sample ∧ 27 < 28 ∧ 28 < sample.cap ∧
      resolveEA (some .x1) false 31 sample = .ok 2047 sample ∧ 2047 < sample.cap := by decide

/-- STX through the pointer in word 29 to address 28, and under the other reading to X1 + 31, the last word. -/
theorem test_witness_StxStoresIndexRegister :
    (∃ s1, resolveEA (movedIndex (some .x1) sample) true 29 sample = .ok 28 s1 ∧ 27 < 28 ∧ 28 < sample.cap) ∧
      ∃ s1, resolveEA (movedIndex (some .x1) otherReadings) false 31 otherReadings = .ok 2047 s1 ∧
        2047 < otherReadings.cap :=
  ⟨⟨_, rfl, by decide, by decide⟩, _, rfl, by decide⟩

theorem test_witness_StxWithoutIndexRegisterStalls : sample.Coherent ∧ sample.CanResolve none true 30 :=
  ⟨by decide, fun _ => by decide⟩

/-- Addresses 0 and 27, through a direct and an indirect form. -/
theorem test_witness_ProtectedStoreFaults :
    resolveEA none false 0 sample = .ok 0 sample ∧
      ∃ s1, resolveEA (movedIndex (some .x1) sample) true 28 sample = .ok 27 s1 ∧ 27 ≤ 27 :=
  ⟨rfl, _, rfl, by decide⟩

/-- AMR and SMR are both in the list the statement draws from. -/
theorem test_witness_MemoryArithmetic :
    sample.Coherent ∧ sample.CanResolve (some .x1) false 31 ∧ sample.ea (some .x1) false 31 < sample.cap ∧
      sample.word (sample.ea (some .x1) false 31) = 0x1801 ∧
      ((Instr.amr .r0 (some .x1) false 31, sample.r.get .r0 + 0x1801,
          (sample.r.get .r0).toInt + (0x1801 : Word).toInt) : Instr × Word × Int) ∈
        [(Instr.amr .r0 (some .x1) false 31, sample.r.get .r0 + 0x1801,
            (sample.r.get .r0).toInt + (0x1801 : Word).toInt),
         (Instr.smr .r0 (some .x1) false 31, sample.r.get .r0 - 0x1801,
            (sample.r.get .r0).toInt - (0x1801 : Word).toInt)] :=
  ⟨by decide, fun h => absurd h (by decide), by decide, by decide, List.mem_cons_self ..⟩

/-- Indirect through word 20, and a condition with its flag (also for JumpsAndLinks and SobDecrementsAndBranches). -/
theorem test_witness_ConditionalJumps :
    sample.Coherent ∧ sample.CanResolve none true 20 ∧
      ((Cond.overflow, 8#4) : Cond × BitVec 4) ∈
        [(Cond.overflow, 8#4), (Cond.underflow, 4#4), (Cond.divZero, 2#4), (Cond.equal, 1#4)] ∧ sample.cc = 8#4 :=
  ⟨by decide, fun _ => by decide, List.mem_cons_self .., rfl⟩

/-- A JSR that answers, and a state that keeps its `R[3]`. -/
theorem test_witness_RfsReturns :
    sample.Coherent ∧ sample.CanResolve none false 31 ∧
      ∃ t, exec (.jsr none false 31) sample = .next t ∧ t.r.get .r3 = 101 :=
  ⟨by decide, fun h => absurd h (by decide), _, rfl, rfl⟩

/-- A pair that exists, the last one that does, and none. -/
theorem test_witness_MltSplitsExactProduct :
    pairRegister .r0 = some .r1 ∧ pairRegister .r2 = some .r3 ∧ pairRegister .r3 = none := by decide

/-- `R[1]` is 2 and `R[2]` is 0 (also for DvdByZeroSetsFlag). -/
theorem test_witness_DvdQuotientAndRemainder : sample.r.get .r1 ≠ 0 ∧ sample.r.get .r2 = 0 := by decide

/-- The bits where the clauses of a shift meet: count 0, 15, 16 and 31 either way. -/
theorem test_witness_SrcShiftsBits :
    [0, 15, 16, 31].map (fun n => shiftWord .right n 0x8001) = [0x8001, 0xFFFF, 0xFFFF, 0xFFFF] ∧
      [0, 15, 16, 31].map (fun n => shiftWord .left n 0x8001) = [0x8001, 0x8000, 0, 0] := by decide

/-- Rotations by 0, 1, 16 and 17 either way. -/
theorem test_witness_RrcRotatesBits :
    [0, 1, 16, 17].map (fun n => rotateWord .right n 0x8001) = [0x8001, 0xC000, 0x8001, 0xC000] ∧
      [0, 1, 16, 17].map (fun n => rotateWord .left n 0x8001) = [0x8001, 3, 0x8001, 3] := by decide

/-- Codes 0 and 8 vector; 9 is the first that does not (also for InvalidTrapCodeFaults). -/
theorem test_witness_TrapVectorsThroughWordZero : sample.Coherent ∧ 0 ≤ 8 ∧ 8 ≤ 8 ∧ 8 < 9 := by decide

theorem test_witness_InputTakesFrontOrBlocks :
    (withInput [65, 66] sample).inq = 65 :: [66] ∧ sample.inq = [] := by decide

/-- A third device id exists whatever the two are. -/
theorem test_witness_OutputEmitsEvent :
    ∃ dev, dev ≠ Config.devidChar ∧ dev ≠ Config.devidNum :=
  ⟨Config.devidChar + Config.devidNum + 1, by omega, by omega⟩

/-- A HLT at the PC with its low bits set. -/
theorem test_witness_HltHaltsAndStays :
    (place 100 ⟨0, 0, 0, 0⟩ ⟨0, 0, 0⟩ 0 [(100, 0x03FF)]).Coherent ∧
      (place 100 ⟨0, 0, 0, 0⟩ ⟨0, 0, 0⟩ 0 [(100, 0x03FF)]).word 100 &&& 0xFC00 = 0 ∧
      ∃ t, step (place 100 ⟨0, 0, 0, 0⟩ ⟨0, 0, 0⟩ 0 [(100, 0x03FF)]) = .next t :=
  ⟨by decide, by decide, _, rfl⟩

/-- The operand at 2048: direct, through word 31 for LDX and STX, and direct for them under the other reading. -/
theorem test_witness_OutOfRangeOperandStalls :
    sample.Coherent ∧ sample.CanResolve (some .x2) false 31 ∧ sample.ea (some .x2) false 31 = sample.cap ∧
      sample.CanResolve none true 31 ∧ sample.ea none true 31 = sample.cap ∧
      otherReadings.Coherent ∧ otherReadings.CanResolve (some .x2) false 31 ∧
      otherReadings.ea (some .x2) false 31 = otherReadings.cap :=
  ⟨by decide, fun h => absurd h (by decide), by decide, fun _ => by decide, by decide, by decide,
    fun h => absurd h (by decide), by decide⟩

/-- A pointer at 2048, for the instructions that index and, under the other reading, for LDX and STX. -/
theorem test_witness_OutOfRangeIndirectStalls :
    sample.Coherent ∧ baseAddress (some .x2) 31 sample = sample.cap ∧ otherReadings.Coherent ∧
      baseAddress (movedIndex (some .x2) otherReadings) 31 otherReadings = otherReadings.cap := by decide

/-- STX with index field 0 at the PC: its step stalls; and a PC at the capacity, where the fetch does. -/
theorem test_witness_StallRepeats :
    (place 100 ⟨0, 0, 0, 0⟩ ⟨0, 0, 0⟩ 0 [(100, 0x881D)]).Coherent ∧
      (∃ t, step (place 100 ⟨0, 0, 0, 0⟩ ⟨0, 0, 0⟩ 0 [(100, 0x881D)]) = .next t ∧ t.outcome = .stall ∧
        t.ir.toNat / 1024 ≠ 0 ∧ t.pc.toNat < t.cap) ∧
      ∃ t, step (place 2048 ⟨0, 0, 0, 0⟩ ⟨0, 0, 0⟩ 0 []) = .next t ∧ t.outcome = .stall ∧ t.cap = t.pc.toNat :=
  ⟨by decide, ⟨_, rfl, rfl, by decide, by decide⟩, _, rfl, rfl, by decide⟩

/-- A TRAP that answers and the state it leaves, coherent. -/
theorem test_witness_IndirectJumpReturns :
    sample.Coherent ∧ (∃ t, exec (.trap 8) sample = .next t ∧ t.Coherent) ∧
      ∃ t, raiseFault .illegalOpcode sample = .next t ∧ t.Coherent :=
  ⟨by decide, ⟨_, rfl, by decide⟩, _, rfl, by decide⟩

/-- Addresses 2047 and 2048. -/
theorem test_witness_StoreReadAndWrite : 2047 < sample.cap ∧ sample.cap ≤ 2048 := by decide

/-- A cached address, one that is not, and one that is out of range (also for CachedWriteGoesThrough). -/
theorem test_witness_CachedReadHitsOrInserts :
    (sample.cache.map CacheLine.addr).Nodup ∧ sample.cache.length ≤ 16 ∧ (⟨20, 300⟩ : CacheLine) ∈ sample.cache ∧
      (∀ l ∈ sample.cache, l.addr ≠ 2047) ∧ 2047 < sample.cap ∧ (∀ l ∈ sample.cache, l.addr ≠ 2048) ∧
      sample.cap ≤ 2048 := by decide

/-- A full cache. -/
theorem test_witness_CacheEvictsInInsertionOrder :
    (((List.range 16).map fun a => ⟨a, 0⟩ : Cache)).length ≤ 16 := by decide

theorem test_witness_ExpandDoublesOnce :
    ({ sample with expanded := true } : State).expanded = true ∧ sample.expanded = false := by decide

/-- A raw store at the last address, past it, and against the cached line. -/
theorem test_witness_RawStoreBypassesCache :
    2047 < sample.cap ∧ sample.cap ≤ 2048 ∧ sample.Coherent ∧ (⟨20, 300⟩ : CacheLine) ∈ sample.cache := by decide

/-- Slots 0 and 12 exist, -1 and 13 do not. -/
theorem test_witness_RegisterSlotsReadBack :
    (0 ≤ (0 : Int) ∧ (0 : Int) ≤ 12) ∧ (0 ≤ (12 : Int) ∧ (12 : Int) ≤ 12) ∧ ¬ (0 ≤ (-1 : Int) ∧ (-1 : Int) ≤ 12) ∧
      ¬ (0 ≤ (13 : Int) ∧ (13 : Int) ≤ 12) := by decide

/-- An engine that is not waiting, and one that waits at an IN. -/
theorem test_witness_SupplyInputResumesBlockedInput :
    sample.engine ≠ .awaitingInput ∧
      ∃ t, step (place 32 ⟨0, 0, 0, 0⟩ ⟨0, 0, 0⟩ 0 [(32, 0xC400)]) = .next t ∧ t.engine = .awaitingInput ∧
        t.Coherent ∧ t.pc.toNat < t.cap ∧ decode t.readings.lrBit (t.word t.pc.toNat) = .ok (.input .r0) :=
  ⟨by decide, _, rfl, rfl, by decide, by decide, rfl⟩

/-- An image that writes one address twice. -/
theorem test_witness_LoadingMakesCoherent :
    ([(5, 1), (2047, 2), (5, 3), (6, 4)] : List (Nat × Word)) = [(5, 1), (2047, 2)] ++ (5, 3) :: [(6, 4)] ∧
      ∀ p ∈ ([(6, 4)] : List (Nat × Word)), p.1 ≠ 5 := by decide

/-- Runs that return: from reset, and at an IN with nothing queued. -/
theorem test_witness_RunReturnsOnlyAtHaltOrInput :
    (∃ t, run 1 State.reset = .next (.returned t)) ∧
      ∃ t, run 2 (place 32 ⟨0, 0, 0, 0⟩ ⟨0, 0, 0⟩ 0 [(32, 0xC400)]) = .next (.returned t) ∧ t.engine = .awaitingInput :=
  ⟨⟨_, rfl⟩, _, rfl, rfl⟩

/-- The invariants hold of a state that is not the reset state, and its step answers (for StepKeepsMemoryInvariant,
StepKeepsFlagsLegal and StepKeepsInterfaceState). -/
theorem test_witness_StepKeepsInvariants :
    sample.MemoryInvariant ∧ sample.CCLegal ∧ sample.MFRLegal ∧ sample.WaitAgrees ∧ sample.Coherent ∧
      ∃ t, step { sample with pc := 2047 } = .next t :=
  ⟨test_sample_invariant, by decide, by decide, by decide, by decide, _, rfl⟩

/-- An expansion, and a raw store at an address the cache holds no line for; one at address 20 is outside the duty. -/
theorem test_witness_HostCallsKeepMemoryInvariant :
    HostCall.expand.DutyKept sample ∧ (HostCall.rawStore 300 1).DutyKept sample ∧
      ¬ (HostCall.rawStore 20 1).DutyKept sample ∧ sample.MemoryInvariant ∧
      (∃ t, hostCall .expand sample = .next t) ∧ ∃ t, hostCall (.rawStore 300 1) sample = .next t :=
  ⟨fun _ _ h => HostCall.noConfusion h, fun _ _ h => by cases h; decide,
    fun h => h 20 1 rfl ⟨20, 300⟩ (List.mem_cons_self ..) rfl, test_sample_invariant, ⟨_, rfl⟩, _, rfl⟩

/-- Words 0, 1, 3 and 27 are among those the reserved-region statement covers. -/
theorem test_witness_StepKeepsReservedWords :
    (0 ≤ 27 ∧ 0 ≠ 2 ∧ 0 ≠ 4) ∧ (3 ≤ 27 ∧ 3 ≠ 2 ∧ 3 ≠ 4) ∧ (27 ≤ 27 ∧ 27 ≠ 2 ∧ 27 ≠ 4) ∧ ∃ t, step sample = .next t :=
  ⟨by decide, by decide, by decide, _, rfl⟩

/-- An instruction outside each of the six lists, answering. -/
theorem test_witness_OnlyNamedInstructionsWrite :
    (Instr.jma none false 0).opcode ∉ [4, 5, 6, 7, 16, 17, 18] ∧ (Instr.jma none false 0).opcode ≠ 33 ∧
      (Instr.jma none false 0).opcode ∉ [2, 30, 34] ∧ (Instr.jma none false 0).opcode ≠ 49 ∧
      (Instr.jma none false 0).opcode ≠ 50 ∧
      (Instr.jma none false 0).opcode ∉ [1, 3, 4, 5, 6, 7, 12, 13, 14, 16, 17, 19, 20, 21, 25, 26, 49] ∧
      ∃ t, exec (.jma none false 0) sample = .next t :=
  ⟨by decide, by decide, by decide, by decide, by decide, by decide, _, rfl⟩

/-- STR to the word after it, fetched at once; and STX, with PC then set to the stored word by the host. -/
theorem test_witness_StoreIsSeenByFetch :
    (∃ s1 t, resolveEA none false 29 (place 28 ⟨0x1801, 0, 0, 0⟩ ⟨0, 0, 0⟩ 0 []) = .ok 29 s1 ∧
      exec (.str .r0 none false 29) (place 28 ⟨0x1801, 0, 0, 0⟩ ⟨0, 0, 0⟩ 0 []) = .next t ∧ ReachesKeepingWord 29 t t ∧
      t.pc.toNat = 29 ∧ 29 < t.cap ∧ decode t.readings.lrBit 0x1801 = .ok (.air .r0 1) ∧
      (place 28 ⟨0x1801, 0, 0, 0⟩ ⟨0, 0, 0⟩ 0 []).Coherent) ∧
    ∃ s1 t u, resolveEA (movedIndex (some .x1) sample) true 29 sample = .ok 28 s1 ∧
      exec (.stx (some .x1) true 29) sample = .next t ∧ ReachesKeepingWord 28 t u ∧ u.pc.toNat = 28 ∧ 28 < u.cap :=
  ⟨⟨_, _, rfl, rfl, .refl _, rfl, by decide, rfl, by decide⟩, _, _, _, rfl, rfl,
    .call (.setRegister 7 28) (.refl _) (fun _ _ h => HostCall.noConfusion h) rfl rfl, rfl, by decide⟩

end Sys2Proof.Tests
end

section
/-! The piece of state 10_state.md describes, settled: the register slots, the reset values, and what an instruction can
do to everything but the memory side (which `MemSide` describes). -/

namespace Sys2Proof.Machine

/-! ## The register slots (R44, R45) -/

/-- The number of a slot in the order of R44. -/
def Slot.number : Slot → Int
  | .r .r0 => 0
  | .r .r1 => 1
  | .r .r2 => 2
  | .r .r3 => 3
  | .x .x1 => 4
  | .x .x2 => 5
  | .x .x3 => 6
  | .pc => 7
  | .ir => 8
  | .cc => 9
  | .mar => 10
  | .mbr => 11
  | .mfr => 12

/-- What a slot holds of a value written to it: 4 bits of it in CC and MFR, 16 in the others (R45). -/
def Slot.truncate (v : Int) : Slot → Word
  | .cc | .mfr => (BitVec.ofInt 4 v).setWidth 16
  | _ => BitVec.ofInt 16 v

theorem Slot.ofNumber_number (slot : Slot) : Slot.ofNumber slot.number = some slot := by
  cases slot with
  | r i => cases i <;> rfl
  | x j => cases j <;> rfl
  | _ => rfl

/-- Every number from 0 to 12 is a slot's. -/
theorem Slot.exists_number {n : Int} (h : 0 ≤ n ∧ n ≤ 12) : ∃ slot : Slot, slot.number = n := by
  obtain ⟨hlo, hhi⟩ := h
  interval_cases n
  exacts [⟨.r .r0, rfl⟩, ⟨.r .r1, rfl⟩, ⟨.r .r2, rfl⟩, ⟨.r .r3, rfl⟩, ⟨.x .x1, rfl⟩, ⟨.x .x2, rfl⟩, ⟨.x .x3, rfl⟩,
    ⟨.pc, rfl⟩, ⟨.ir, rfl⟩, ⟨.cc, rfl⟩, ⟨.mar, rfl⟩, ⟨.mbr, rfl⟩, ⟨.mfr, rfl⟩]

/-- CC and MFR are slots 9 and 12. -/
theorem Slot.truncate_eq (v : Int) (slot : Slot) :
    slot.truncate v =
      if slot.number = 9 ∨ slot.number = 12 then (BitVec.ofInt 4 v).setWidth 16 else BitVec.ofInt 16 v := by
  cases slot with
  | r i => cases i <;> rfl
  | x j => cases j <;> rfl
  | _ => rfl

theorem getRegister_number (slot : Slot) (s : State) : getRegister slot.number s = some (readSlot s slot) := by
  rw [getRegister, Slot.ofNumber_number, Option.map_some]

theorem setRegister_number (slot : Slot) (v : Int) (s : State) : setRegister slot.number v s = writeSlot v s slot := by
  rw [setRegister, Slot.ofNumber_number]

theorem getRegister_of_out {n : Int} (h : ¬ (0 ≤ n ∧ n ≤ 12)) (s : State) : getRegister n s = none := by
  rw [getRegister, Slot.ofNumber_none h, Option.map_none]

theorem setRegister_of_out {n : Int} (h : ¬ (0 ≤ n ∧ n ≤ 12)) (v : Int) (s : State) : setRegister n v s = s := by
  rw [setRegister, Slot.ofNumber_none h]

theorem readSlot_writeSlot_same (v : Int) (s : State) (slot : Slot) :
    readSlot (writeSlot v s slot) slot = slot.truncate v := by
  cases slot with
  | r i => exact GRegs.get_set_same ..
  | x j => exact XRegs.get_set_same ..
  | _ => rfl

theorem readSlot_writeSlot_other (v : Int) (s : State) {a b : Slot} (h : b ≠ a) :
    readSlot (writeSlot v s a) b = readSlot s b := by
  cases a with
  | r i =>
    cases b with
    | r j => exact GRegs.get_set_other _ _ fun e => h (congrArg Slot.r e)
    | _ => rfl
  | x i =>
    cases b with
    | x j => exact XRegs.get_set_other _ _ fun e => h (congrArg Slot.x e)
    | _ => rfl
  | _ => cases b <;> first | rfl | exact absurd rfl h

/-- A slot write changes nothing that is no register. -/
theorem writeSlot_frame (v : Int) (s : State) (slot : Slot) :
    writeSlot v s slot =
      { s with
          r := (writeSlot v s slot).r, x := (writeSlot v s slot).x, pc := (writeSlot v s slot).pc
          ir := (writeSlot v s slot).ir, cc := (writeSlot v s slot).cc, mar := (writeSlot v s slot).mar
          mbr := (writeSlot v s slot).mbr, mfr := (writeSlot v s slot).mfr } := by
  cases slot <;> rfl

/-- A write to one slot leaves what every other number reads as. -/
theorem getRegister_writeSlot_other (v : Int) (s : State) (slot : Slot) {k : Int} (h : k ≠ slot.number) :
    getRegister k (writeSlot v s slot) = getRegister k s := by
  by_cases hk : 0 ≤ k ∧ k ≤ 12
  · obtain ⟨other, rfl⟩ := Slot.exists_number hk
    have hne : other ≠ slot := fun e => h (congrArg Slot.number e)
    rw [getRegister_number, getRegister_number, readSlot_writeSlot_other v s hne]
  · rw [getRegister_of_out hk, getRegister_of_out hk]

/-- Settles O48: each number from 0 to 12 is a slot's, and the rules of a slot write say the rest. -/
theorem registerSlotsReadBack : Obligations.RegisterSlotsReadBack := by
  refine fun s => ⟨rfl, fun n v => ⟨fun hn => ?_, fun hn => ⟨getRegister_of_out hn s, setRegister_of_out hn v s⟩⟩⟩
  obtain ⟨slot, rfl⟩ := Slot.exists_number hn
  refine ⟨writeSlot v s slot, setRegister_number slot v s, ?_, fun k hk => getRegister_writeSlot_other v s slot hk,
    writeSlot_frame v s slot⟩
  rw [getRegister_number, readSlot_writeSlot_same, Slot.truncate_eq]

/-! ## Reset (R46, R310) -/

/-- Settles O52: the fields of the reset state are written out in the model, and an empty store reads 0. -/
theorem resetLeavesSpecValues : Obligations.ResetLeavesSpecValues := by
  have hword : ∀ a, State.reset.word a = 0 := fun a => show joinBytes unlistedByte unlistedByte = 0 from rfl
  have hr : ∀ g, State.reset.r.get g = 0 := fun g => by cases g <;> rfl
  have hx : ∀ j, State.reset.x.get j = 0 := fun j => by cases j <;> rfl
  exact ⟨hword, rfl, rfl, rfl, rfl, rfl, rfl, rfl, hr, hx, rfl, rfl, rfl, rfl, rfl, rfl⟩

theorem reset_memoryInvariant : State.reset.MemoryInvariant where
  coherent := .of_cache_nil rfl
  lines := Nat.zero_le _
  canonical := reset_mem_wf
  bounded := rfl

/-- Settles O53: the memory side is empty, CC and MFR are 0, and the engine is Ready. -/
theorem resetMeetsInvariants : Obligations.ResetMeetsInvariants :=
  ⟨reset_memoryInvariant, .inl rfl, .inl rfl, fun h => EngineState.noConfusion h⟩

/-! ## What an instruction can do

`Effect writes s t`: the second state comes from the first by writing only parts that `writes` names, with CC, MFR and
the wait flag kept legal. Each operation the meanings are made of keeps it; so each instruction has it, with the parts
the spec names as its own, and the rules about all instructions are read off. -/

/-- The parts of the state that rules about all instructions speak of. -/
inductive Part where
  | r | x | cc | mfr | mem | inq | wait | outs | ir | expanded | readings

/-- The part is the same in both states. -/
def Part.Same (s t : State) : Part → Prop
  | .r => t.r = s.r
  | .x => t.x = s.x
  | .cc => t.cc = s.cc
  | .mfr => t.mfr = s.mfr
  | .mem => t.mem = s.mem
  | .inq => t.inq = s.inq
  | .wait => t.wait = s.wait
  | .outs => t.outs = s.outs
  | .ir => t.ir = s.ir
  | .expanded => t.expanded = s.expanded
  | .readings => t.readings = s.readings

/-- The opcodes of the instructions that may write the part (R22, R24, R32, R34, R38 to R41, R76, R107). -/
def Part.writers : Part → List Nat
  | .r => [1, 3, 4, 5, 6, 7, 12, 13, 14, 16, 17, 19, 20, 21, 25, 26, 49]
  | .x => [33]
  | .cc => [4, 5, 6, 7, 16, 17, 18]
  | .mfr | .mem => [2, 30, 34]
  | .inq | .wait => [49]
  | .outs => [50]
  | .ir | .expanded | .readings => []

/-- The parts an instruction may write. -/
def instrWrites (i : Instr) (p : Part) : Bool := p.writers.contains i.opcode

theorem instrWrites_eq_false {i : Instr} {p : Part} (h : i.opcode ∉ p.writers) : instrWrites i p = false := by
  simpa only [instrWrites, List.contains_eq_mem, decide_eq_false_iff_not] using h

/-- The parts the dispatch of a machine fault writes (R272). -/
def faultWrites : Part → Bool
  | .mfr | .mem => true
  | _ => false

/-- The second state differs from the first only in parts that may be written, and CC, MFR and the wait flag stay legal
(R30, R276, R39). -/
structure Effect (writes : Part → Bool) (s t : State) : Prop where
  frame : ∀ p, writes p = false → p.Same s t
  ccLegal : s.CCLegal → t.CCLegal
  mfrLegal : s.MFRLegal → t.MFRLegal
  waitAgrees : s.WaitAgrees → t.WaitAgrees

theorem Part.Same.refl (p : Part) (s : State) : p.Same s s := by
  cases p <;> rfl

theorem Part.Same.trans {p : Part} {s t u : State} (h : p.Same s t) (k : p.Same t u) : p.Same s u := by
  cases p <;> exact Eq.trans k h

/-! ### The values the writers of CC and MFR leave (R31, R32, R35) -/

theorem ccLegal_setCC_ccOfExact (n : Int) (s : State) : (setCC (ccOfExact n) s).CCLegal := by
  simp only [State.CCLegal, setCC_cc, ccOfExact]
  split
  · decide
  · split <;> decide

theorem ccLegal_setCC_ccOfSumImm (n : Int) (s : State) : (setCC (ccOfSumImm n) s).CCLegal := by
  simp only [State.CCLegal, setCC_cc, ccOfSumImm]
  split <;> decide

theorem ccLegal_setCC_ccOfDiffImm (n : Int) (s : State) : (setCC (ccOfDiffImm n) s).CCLegal := by
  simp only [State.CCLegal, setCC_cc, ccOfDiffImm]
  split <;> decide

theorem ccLegal_setCC_ccOfCompare (a b : Word) (s : State) : (setCC (ccOfCompare a b) s).CCLegal := by
  simp only [State.CCLegal, setCC_cc, ccOfCompare]
  split <;> decide

theorem ccLegal_setCC_ccNone (s : State) : (setCC ccNone s).CCLegal := .inl rfl

theorem ccLegal_setCC_ccDivZero (s : State) : (setCC ccDivZero s).CCLegal := .inr (.inr (.inl rfl))

/-- Kind 3 is the only one whose flag is not legal, and the core never raises it (R276). -/
theorem mfrLegal_faulted {kind : FaultKind} (h : kind ≠ .memoryOutOfRange) (s : State) : (s.faulted kind).MFRLegal := by
  cases kind with
  | protectedWrite => exact .inr (.inl rfl)
  | invalidTrapCode => exact .inr (.inr (.inl rfl))
  | illegalOpcode => exact .inr (.inr (.inr rfl))
  | memoryOutOfRange => exact absurd rfl h

/-! ### Each operation on the state keeps the effect -/

namespace Effect

variable {writes : Part → Bool} {s u : State}

theorem refl (writes : Part → Bool) (s : State) : Effect writes s s :=
  ⟨fun p _ => .refl p s, id, id, id⟩

theorem trans {t : State} (h : Effect writes s t) (k : Effect writes t u) : Effect writes s u :=
  ⟨fun p hp => (h.frame p hp).trans (k.frame p hp), k.ccLegal ∘ h.ccLegal, k.mfrLegal ∘ h.mfrLegal,
    k.waitAgrees ∘ h.waitAgrees⟩

/-- What the primitives of R75 and R76 mirror, and PC, are no part. -/
theorem setAccess (h : Effect writes s u) (mar mbr pc : Word) (c : Cache) :
    Effect writes s { u with mar := mar, mbr := mbr, pc := pc, cache := c } :=
  h.trans ⟨fun p _ => (by cases p <;> rfl), id, id, id⟩

theorem advance (h : Effect writes s u) : Effect writes s (advance u) := h.setAccess ..

theorem jumpTo (h : Effect writes s u) (a : Nat) : Effect writes s (jumpTo a u) := h.setAccess ..

theorem setRegs (h : Effect writes s u) (hw : writes .r = true) (g : GRegs) : Effect writes s { u with r := g } :=
  h.trans ⟨fun p hp => (by cases p <;> simp_all [Part.Same]), id, id, id⟩

theorem setR (h : Effect writes s u) (hw : writes .r = true) (i : GReg) (v : Word) : Effect writes s (setR i v u) :=
  h.setRegs hw _

theorem setPair (h : Effect writes s u) (hw : writes .r = true) (i : GReg) (v w : Word) :
    Effect writes s (setPair i v w u) :=
  h.setRegs hw _

theorem setIndex (h : Effect writes s u) (hw : writes .x = true) (x : XRegs) : Effect writes s { u with x := x } :=
  h.trans ⟨fun p hp => (by cases p <;> simp_all [Part.Same]), id, id, id⟩

theorem setCC (h : Effect writes s u) (hw : writes .cc = true) {c : BitVec 4} (hc : (setCC c u).CCLegal) :
    Effect writes s (setCC c u) :=
  h.trans ⟨fun p hp => (by cases p <;> simp_all [Part.Same]), fun _ => hc, id, id⟩

theorem setInq (h : Effect writes s u) (hw : writes .inq = true) (q : List Word) : Effect writes s { u with inq := q } :=
  h.trans ⟨fun p hp => (by cases p <;> simp_all [Part.Same]), id, id, id⟩

theorem setOuts (h : Effect writes s u) (hw : writes .outs = true) (e : List OutEvent) :
    Effect writes s { u with outs := e } :=
  h.trans ⟨fun p hp => (by cases p <;> simp_all [Part.Same]), id, id, id⟩

theorem afterWrite (h : Effect writes s u) (hw : writes .mem = true) (a : Nat) (v : Word) :
    Effect writes s (u.afterWrite a v) :=
  h.trans ⟨fun p hp => (by cases p <;> simp_all [Part.Same]), id, id, id⟩

theorem faulted (h : Effect writes s u) (hm : writes .mem = true) (hf : writes .mfr = true) {kind : FaultKind}
    (hk : kind ≠ .memoryOutOfRange) : Effect writes s (u.faulted kind) :=
  h.trans ⟨fun p hp => (by cases p <;> simp_all [Part.Same, State.faulted]), id,
    fun _ => mfrLegal_faulted hk u, fun _ e => EngineState.noConfusion e⟩

/-- The ends of a step other than `await` leave an engine that does not wait. -/
theorem ended (h : Effect writes s u) {e : EngineState} (he : e ≠ .awaitingInput) (o : StepOutcome) :
    Effect writes s { u with engine := e, outcome := o } :=
  h.trans ⟨fun p _ => (by cases p <;> rfl), id, id, fun _ e => absurd e he⟩

theorem completed (h : Effect writes s u) : Effect writes s u.completed := h.ended (by decide) _

theorem stalledAt (h : Effect writes s u) : Effect writes s u.stalledAt := h.ended (by decide) _

/-- A blocked IN sets the engine state and the wait flag together (R252). -/
theorem awaits (h : Effect writes s u) (hw : writes .wait = true) :
    Effect writes s { u with engine := .awaitingInput, wait := .blockedWaiting, outcome := .await } :=
  h.trans ⟨fun p hp => (by cases p <;> simp_all [Part.Same]), id, id, fun _ _ => rfl⟩

end Effect

/-! ### From the operations to the instructions -/

/-- The result is a next state with the effect. -/
abbrev Answers (writes : Part → Bool) (s : State) (r : Result) : Prop := ∃ t, r = .next t ∧ Effect writes s t

theorem Answers.effect {writes : Part → Bool} {s t : State} {r : Result} (h : Answers writes s r) (hr : r = .next t) :
    Effect writes s t := by
  obtain ⟨u, hu, he⟩ := h
  cases hu.symm.trans hr
  exact he

section
variable {writes : Part → Bool} {s u : State}

theorem answers_memRead (h : Effect writes s u) {a : Nat} {k : Word → State → Result}
    (hk : ∀ w t, Effect writes s t → Answers writes s (k w t)) : Answers writes s ((memRead a u).andThen k) := by
  cases hr : memRead a u with
  | ok w t =>
    obtain ⟨rfl, -⟩ := memRead_ok hr
    exact hk w _ (h.setAccess ..)
  | stalled t =>
    obtain ⟨rfl, -⟩ := memRead_stalled hr
    exact ⟨_, rfl, (h.setAccess ..).stalledAt⟩

theorem answers_resolveEA (h : Effect writes s u) {ix : Option XReg} {ind : Bool} {addr : Nat} {k : Nat → State → Result}
    (hk : ∀ ea t, Effect writes s t → Answers writes s (k ea t)) :
    Answers writes s ((resolveEA ix ind addr u).andThen k) := by
  cases hr : resolveEA ix ind addr u with
  | ok ea t =>
    rw [resolveEA_ok hr]
    exact hk ea _ (h.setAccess ..)
  | stalled t =>
    obtain ⟨-, rfl, -⟩ := resolveEA_stalled hr
    exact ⟨_, rfl, (h.setAccess ..).stalledAt⟩

theorem answers_storeChecked (h : Effect writes s u) (hm : writes .mem = true) (hf : writes .mfr = true) (ea : Nat)
    (v : Word) : Answers writes s (storeChecked ea v u) := by
  by_cases hp : ea ≤ 27
  · exact ⟨_, storeChecked_of_le v u hp, h.faulted hm hf (by decide)⟩
  · by_cases hc : ea < u.cap
    · exact ⟨_, storeChecked_of_lt v (by omega) hc, (h.afterWrite hm ..).advance.completed⟩
    · exact ⟨_, storeChecked_of_ge v (by omega), (h.setAccess ..).stalledAt⟩

theorem answers_branch (h : Effect writes s u) (taken : Bool) (ea : Nat) : Answers writes s (branch taken ea u) := by
  cases taken with
  | true => exact ⟨_, branch_true ea u, (h.jumpTo ea).completed⟩
  | false => exact ⟨_, branch_false ea u, h.advance.completed⟩

end

/-- IN with nothing queued blocks (R252). -/
theorem execInput_of_nil (r : GReg) {s : State} (h : s.inq = []) : execInput r s = await s := by
  simp only [execInput, h]

/-- IN takes the front of the queue (R252). -/
theorem execInput_of_cons (r : GReg) {s : State} {w : Word} {rest : List Word} (h : s.inq = w :: rest) :
    execInput r s = .next (advance { setR r w s with inq := rest }).completed := by
  simp only [execInput, h, complete_eq]

theorem execInput_effect (r : GReg) (s : State) : Answers (instrWrites (.input r)) s (execInput r s) := by
  have h := Effect.refl (instrWrites (.input r)) s
  cases hq : s.inq with
  | nil => exact ⟨_, execInput_of_nil r hq, h.awaits rfl⟩
  | cons w rest => exact ⟨_, execInput_of_cons r hq, ((h.setR rfl r w).setInq rfl rest).advance.completed⟩

theorem execDvd_effect (rx ry : GReg) (s : State) : Answers (instrWrites (.dvd rx ry)) s (execDvd rx ry s) := by
  have h := Effect.refl (instrWrites (.dvd rx ry)) s
  unfold execDvd
  split
  · exact ⟨_, rfl, (h.setCC rfl (ccLegal_setCC_ccDivZero _)).advance.completed⟩
  · exact ⟨_, rfl, ((h.setPair rfl ..).setCC rfl (ccLegal_setCC_ccNone _)).advance.completed⟩

theorem execTrap_effect (code : Nat) (s : State) : Answers (instrWrites (.trap code)) s (execTrap code s) := by
  have hu : Effect (instrWrites (.trap code)) s { s.afterWrite 2 (s.pc + 1) with pc := 0 } :=
    ((Effect.refl _ s).afterWrite rfl ..).setAccess ..
  simp only [execTrap, saveTrapReturn_eq, Access.andThen_ok]
  split
  · exact ⟨_, raiseFault_eq _ _, hu.faulted rfl rfl (by decide)⟩
  · exact answers_memRead hu fun b t ht => ⟨_, rfl, (ht.jumpTo (u16 b + code)).completed⟩

/-- Every instruction answers a next state that differs from the one before only in the parts it may write, and keeps
CC, MFR and the wait flag legal. -/
theorem exec_effect (i : Instr) (s : State) : Answers (instrWrites i) s (exec i s) := by
  have h := Effect.refl (instrWrites i) s
  cases i with
  | hlt => exact ⟨_, rfl, h.ended (by decide) _⟩
  | ldr =>
    exact answers_resolveEA h fun _ _ hu => answers_memRead hu fun _ _ ht => ⟨_, rfl, (ht.setR rfl ..).advance.completed⟩
  | ldx =>
    exact answers_resolveEA h fun _ _ hu => answers_memRead hu fun _ _ ht =>
      ⟨_, rfl, (ht.setIndex rfl _).advance.completed⟩
  | amr | smr =>
    exact answers_resolveEA h fun _ _ hu => answers_memRead hu fun _ _ ht =>
      ⟨_, rfl, ((ht.setR rfl ..).setCC rfl (ccLegal_setCC_ccOfExact ..)).advance.completed⟩
  | air => exact ⟨_, rfl, ((h.setR rfl ..).setCC rfl (ccLegal_setCC_ccOfSumImm ..)).advance.completed⟩
  | sir => exact ⟨_, rfl, ((h.setR rfl ..).setCC rfl (ccLegal_setCC_ccOfDiffImm ..)).advance.completed⟩
  | lda => exact answers_resolveEA h fun _ _ hu => ⟨_, rfl, (hu.setR rfl ..).advance.completed⟩
  | str => exact answers_resolveEA h fun _ _ hu => answers_storeChecked hu rfl rfl ..
  | stx ix =>
    cases ix with
    | none => exact answers_resolveEA h fun _ _ hu => ⟨_, rfl, hu.stalledAt⟩
    | some j => exact answers_resolveEA h fun _ _ hu => answers_storeChecked hu rfl rfl ..
  | jz | jne | jcc | jge => exact answers_resolveEA h fun _ _ hu => answers_branch hu ..
  | sob => exact answers_resolveEA h fun _ _ hu => answers_branch (hu.setR rfl ..) ..
  | jma => exact answers_resolveEA h fun _ _ hu => ⟨_, rfl, (hu.jumpTo _).completed⟩
  | jsr => exact answers_resolveEA h fun _ _ hu => ⟨_, rfl, ((hu.setR rfl ..).jumpTo _).completed⟩
  | rfs => exact ⟨_, rfl, ((h.setR rfl ..).setAccess ..).completed⟩
  | mlt => exact ⟨_, rfl, ((h.setPair rfl ..).setCC rfl (ccLegal_setCC_ccNone _)).advance.completed⟩
  | dvd rx ry => exact execDvd_effect rx ry s
  | trr => exact ⟨_, rfl, (h.setCC rfl (ccLegal_setCC_ccOfCompare ..)).advance.completed⟩
  | and | orr | not | src | rrc => exact ⟨_, rfl, (h.setR rfl ..).advance.completed⟩
  | trap code => exact execTrap_effect code s
  | input r => exact execInput_effect r s
  | output => exact ⟨_, rfl, (h.setOuts rfl _).advance.completed⟩

/-- Settles O59: what an instruction may write is looked up by its opcode. -/
theorem onlyNamedInstructionsWrite : Obligations.OnlyNamedInstructionsWrite := by
  intro i s t ht
  have keeps : ∀ p : Part, i.opcode ∉ p.writers → p.Same s t := fun p hp =>
    ((exec_effect i s).effect ht).frame p (instrWrites_eq_false hp)
  exact ⟨keeps .cc, fun h => keeps .x (mt List.mem_singleton.mp h), fun h => ⟨keeps .mfr h, keeps .mem h⟩,
    fun h => ⟨keeps .inq (mt List.mem_singleton.mp h), keeps .wait (mt List.mem_singleton.mp h)⟩,
    fun h => keeps .outs (mt List.mem_singleton.mp h), keeps .r⟩

/-! ## What a step can do -/

/-- The word in IR is run as the instruction it decodes to, or dispatches fault 2 (R133, R134, R254). -/
theorem decodeExecute_cases {s t : State} (h : decodeExecute s = .next t) :
    (∃ i, decode s.readings.lrBit s.ir = .ok i ∧ exec i s = .next t) ∨ t = s.faulted .illegalOpcode := by
  unfold decodeExecute at h
  split at h
  · next i hi => exact .inl ⟨i, hi, h⟩
  · rw [execIllegal, raiseFault_eq] at h
    cases h
    exact .inr rfl

/-- So either it has the effect of an instruction, or that of a fault. -/
theorem decodeExecute_effect {s t : State} (h : decodeExecute s = .next t) :
    ∃ writes, Effect writes s t ∧ writes .ir = false ∧ writes .expanded = false ∧ writes .readings = false := by
  obtain ⟨i, -, hi⟩ | rfl := decodeExecute_cases h
  · exact ⟨instrWrites i, (exec_effect i s).effect hi, rfl, rfl, rfl⟩
  · exact ⟨faultWrites, (Effect.refl _ s).faulted rfl rfl (by decide), rfl, rfl, rfl⟩

/-- A step stalls in the fetch, or goes on from what the fetch leaves (R132 to R134). -/
theorem step_cases {s t : State} (h : step s = .next t) :
    t = ({ s with mar := s.pc } : State).stalledAt ∨ ∃ w u, fetch s = .ok w u ∧ decodeExecute u = .next t := by
  simp only [step, stepEngine] at h
  cases hf : fetch s with
  | ok w u => exact .inr ⟨w, u, rfl, by rwa [hf] at h⟩
  | stalled u =>
    rw [hf, (fetch_stalled hf).1] at h
    cases h
    exact .inl rfl

/-- Settles O56: a stalled fetch touches no flag, and whatever the fetched word is has an effect that keeps them legal. -/
theorem stepKeepsFlagsLegal : Obligations.StepKeepsFlagsLegal := by
  intro s t hcc hmfr hwait ht
  obtain rfl | ⟨w, u, hf, hd⟩ := step_cases ht
  · exact ⟨hcc, hmfr, fun e => EngineState.noConfusion e⟩
  · obtain rfl := fetch_ok hf
    obtain ⟨_, he, -⟩ := decodeExecute_effect hd
    exact ⟨he.ccLegal hcc, he.mfrLegal hmfr, he.waitAgrees hwait⟩

/-! ### The queue and the stream -/

theorem outEvents_length_le (dev : Nat) (w : Word) : (outEvents dev w).length ≤ 1 := by
  unfold outEvents
  split
  · exact le_rfl
  · split
    · exact le_rfl
    · exact Nat.zero_le 1

theorem eq_output_of_opcode {i : Instr} (h : i.opcode = 50) : ∃ r dev, i = .output r dev := by
  cases i with
  | output r dev => exact ⟨r, dev, rfl⟩
  | _ => cases h

theorem eq_input_of_opcode {i : Instr} (h : i.opcode = 49) : ∃ r, i = .input r := by
  cases i with
  | input r => exact ⟨r, rfl⟩
  | _ => cases h

/-- No instruction but OUT touches the stream, and OUT appends what the device id selects (R40, R253). -/
theorem exec_outs {i : Instr} {s t : State} (h : exec i s = .next t) : ∃ e, t.outs = s.outs ++ e ∧ e.length ≤ 1 := by
  by_cases hi : i.opcode = 50
  · obtain ⟨r, dev, rfl⟩ := eq_output_of_opcode hi
    cases h
    exact ⟨outEvents dev (s.r.get r), rfl, outEvents_length_le ..⟩
  · have hsame : t.outs = s.outs :=
      ((exec_effect i s).effect h).frame .outs (instrWrites_eq_false (mt List.mem_singleton.mp hi))
    exact ⟨[], by rw [hsame, List.append_nil], Nat.zero_le 1⟩

/-- No instruction but IN touches the queue, and IN takes its front word or blocks (R38, R252). -/
theorem exec_inq {i : Instr} {s t : State} (h : exec i s = .next t) : t.inq = s.inq ∨ ∃ w, s.inq = w :: t.inq := by
  by_cases hi : i.opcode = 49
  · obtain ⟨r, rfl⟩ := eq_input_of_opcode hi
    change execInput r s = .next t at h
    cases hq : s.inq with
    | nil =>
      cases (execInput_of_nil r hq).symm.trans h
      exact .inl hq
    | cons w rest =>
      cases (execInput_of_cons r hq).symm.trans h
      exact .inr ⟨w, rfl⟩
  · exact .inl (((exec_effect i s).effect h).frame .inq (instrWrites_eq_false (mt List.mem_singleton.mp hi)))

theorem decodeExecute_outs {s t : State} (h : decodeExecute s = .next t) :
    ∃ e, t.outs = s.outs ++ e ∧ e.length ≤ 1 := by
  obtain ⟨i, -, hi⟩ | rfl := decodeExecute_cases h
  · exact exec_outs hi
  · exact ⟨[], (List.append_nil _).symm, Nat.zero_le 1⟩

theorem decodeExecute_inq {s t : State} (h : decodeExecute s = .next t) : t.inq = s.inq ∨ ∃ w, s.inq = w :: t.inq := by
  obtain ⟨i, -, hi⟩ | rfl := decodeExecute_cases h
  · exact exec_inq hi
  · exact .inl rfl

/-- In a coherent machine a fetch that succeeds is in range, and its word is the store's at PC (R74, R132). -/
theorem State.Coherent.eq_fetched {s u : State} {w : Word} (hs : s.Coherent) (h : fetch s = .ok w u) : u = s.fetched := by
  by_cases hp : s.pc.toNat < s.cap
  · rw [fetch_of_lt hs hp] at h
    cases h
    rfl
  · simp only [fetch, u16, memRead_of_ge hs (Nat.le_of_not_lt hp)] at h
    cases h

/-- Settles O58: a stalled fetch leaves IR and the interface as they were; otherwise the fetch puts the word at PC in IR,
and the instruction run, or the fault, has the rest. -/
theorem stepKeepsInterfaceState : Obligations.StepKeepsInterfaceState := by
  intro s t hs ht
  obtain rfl | ⟨w, u, hf, hd⟩ := step_cases ht
  · exact ⟨rfl, ⟨[], (List.append_nil _).symm, Nat.zero_le 1⟩, .inl rfl, .inr ⟨rfl, rfl⟩, rfl⟩
  · obtain rfl := hs.eq_fetched hf
    obtain ⟨_, he, hir, hexp, hread⟩ := decodeExecute_effect hd
    have houts := decodeExecute_outs hd
    have hinq := decodeExecute_inq hd
    exact ⟨he.frame .expanded hexp, houts, hinq, .inl (he.frame .ir hir),
      he.frame .readings hread⟩

end Sys2Proof.Machine
end

section
/-! The memory side of 20_memory.md, settled: the Word Store, the Lookaside Cache, and what the engine and the host can do
to both. The invariants are read off `MemSide`, which says what a step can do, and `HostSide`, which says the same of any
call of the host. -/

namespace Sys2Proof.Machine

/-! ## The Word Store (R64, R65) -/

theorem storeRead_of_lt {s : State} {a : Nat} (h : a < s.cap) : storeRead s a = some (s.word a) := if_pos h

theorem storeRead_of_ge {s : State} {a : Nat} (h : s.cap ≤ a) : storeRead s a = none := if_neg (Nat.not_lt.mpr h)

theorem storeWrite_of_lt {s : State} {a : Nat} (v : Word) (h : a < s.cap) :
    storeWrite s a v = some (s.mem.writeWord a v) := if_pos h

theorem storeWrite_of_ge {s : State} {a : Nat} (v : Word) (h : s.cap ≤ a) : storeWrite s a v = none :=
  if_neg (Nat.not_lt.mpr h)

/-- Settles O41: both test the capacity first, and a write is then seen by a read of its own word alone. -/
theorem storeReadAndWrite : Obligations.StoreReadAndWrite := fun s _ v =>
  ⟨fun h => ⟨storeRead_of_lt h, _, storeWrite_of_lt v h, Memory.readWord_writeWord_same .., fun _ hb =>
    Memory.readWord_writeWord_other s.mem v hb⟩, fun h => ⟨storeRead_of_ge h, storeWrite_of_ge v h⟩⟩

/-! ## The Lookaside Cache (R69 to R72) -/

/-- With one line an address, a lookup finds the line there is. -/
theorem Cache.lookup_of_mem {c : Cache} (hc : (c.map CacheLine.addr).Nodup) {l : CacheLine} (hl : l ∈ c) :
    c.lookup l.addr = some l.word := by
  cases h : c.lookup l.addr with
  | none => exact absurd rfl (Cache.lookup_eq_none_iff.mp h l hl)
  | some w =>
    have hsame : l = ⟨l.addr, w⟩ := List.inj_on_of_nodup_map hc hl (Cache.mem_of_lookup h) rfl
    rw [congrArg CacheLine.word hsame]

/-- A new line is put before the 15 newest of the old ones. -/
theorem Cache.insert_eq_cons_take {c : Cache} (h : c.length ≤ 16) (a : Nat) (w : Word) :
    c.insert a w = ⟨a, w⟩ :: c.take 15 := by
  unfold Cache.insert
  split
  · next hfull =>
    have hlen : c.length = 16 := Nat.le_antisymm h hfull
    rw [List.dropLast_eq_take, hlen]
  · next hroom => rw [List.take_of_length_le (Nat.le_of_lt_succ (Nat.lt_of_not_le hroom))]

/-- An update leaves the lines of other addresses as they were (R72, R73). -/
theorem Cache.mem_update_other {c : Cache} {a : Nat} {v : Word} {l : CacheLine} (h : l.addr ≠ a) :
    l ∈ c.update a v ↔ l ∈ c :=
  ⟨fun hl => (Cache.mem_update hl).elim (fun e => absurd (congrArg CacheLine.addr e) h) And.left,
    fun hl => List.mem_map.mpr ⟨l, hl, if_neg h⟩⟩

/-- An update leaves one word in the lines of its address (R72). -/
theorem Cache.word_of_mem_update {c : Cache} {a : Nat} {v : Word} {l : CacheLine} (hl : l ∈ c.update a v)
    (h : l.addr = a) : l.word = v :=
  (Cache.mem_update hl).elim (congrArg CacheLine.word) fun hold => absurd h hold.2

theorem cachedRead_of_hit {s : State} {a : Nat} {w : Word} (h : s.cache.lookup a = some w) :
    cachedRead s a = some (w, s) := by
  rw [cachedRead, h]

theorem cachedRead_of_miss {s : State} {a : Nat} (h : s.cache.lookup a = none) (ha : a < s.cap) :
    cachedRead s a = some (s.word a, { s with cache := s.cache.insert a (s.word a) }) := by
  simp only [cachedRead, h, storeRead_of_lt ha]

theorem cachedRead_of_ge {s : State} {a : Nat} (h : s.cache.lookup a = none) (ha : s.cap ≤ a) :
    cachedRead s a = none := by
  simp only [cachedRead, h, storeRead_of_ge ha]

theorem cachedWrite_of_lt {s : State} {a : Nat} (v : Word) (ha : a < s.cap) :
    cachedWrite s a v = some { s with mem := s.mem.writeWord a v, cache := s.cache.afterWrite a v } := by
  simp only [cachedWrite, storeWrite_of_lt v ha]

theorem cachedWrite_of_ge {s : State} {a : Nat} (v : Word) (ha : s.cap ≤ a) : cachedWrite s a v = none := by
  simp only [cachedWrite, storeWrite_of_ge v ha]

theorem Cache.afterWrite_of_hit {c : Cache} {a : Nat} (v : Word) (h : ∃ l ∈ c, l.addr = a) :
    c.afterWrite a v = c.update a v := by
  obtain ⟨l, hl, ha⟩ := h
  unfold Cache.afterWrite
  split
  · rfl
  · next hnone => exact absurd ha (Cache.lookup_eq_none_iff.mp hnone l hl)

theorem Cache.afterWrite_of_miss {c : Cache} {a : Nat} (v : Word) (h : ∀ l ∈ c, l.addr ≠ a) :
    c.afterWrite a v = c.insert a v := by
  rw [Cache.afterWrite, Cache.lookup_eq_none_iff.mpr h]

/-- Settles O42: a hit is answered from the line, a miss by the store, whose word is put before the 15 newest lines. -/
theorem cachedReadHitsOrInserts : Obligations.CachedReadHitsOrInserts := by
  refine fun s a hnodup hlen => ⟨fun l hl ha => ?_, fun hmiss => ?_⟩
  · exact cachedRead_of_hit (ha ▸ Cache.lookup_of_mem hnodup hl)
  · have hnone := Cache.lookup_eq_none_iff.mpr hmiss
    refine ⟨fun ha => ?_, cachedRead_of_ge hnone⟩
    rw [cachedRead_of_miss hnone ha, Cache.insert_eq_cons_take hlen]

/-- Settles O43: a hit is updated in place, a miss put before the 15 newest lines. -/
theorem cachedWriteGoesThrough : Obligations.CachedWriteGoesThrough := by
  refine fun s a v hlen => ⟨cachedWrite_of_ge v, fun ha => ⟨_, cachedWrite_of_lt v ha, rfl,
    Memory.readWord_writeWord_same .., fun _ hb => Memory.readWord_writeWord_other s.mem v hb, fun hhit => ?_,
    fun hmiss => (Cache.afterWrite_of_miss v hmiss).trans (Cache.insert_eq_cons_take hlen a v)⟩⟩
  rw [Cache.afterWrite_of_hit v hhit]
  exact ⟨Cache.update_addrs .., fun _ => Cache.word_of_mem_update, fun _ => Cache.mem_update_other⟩

/-- Settles O44, by induction on the lines inserted: each insertion is a cons cut to 16 lines, and the cuts before the last
one cut nothing the last one keeps. -/
theorem cacheEvictsInInsertionOrder : Obligations.CacheEvictsInInsertionOrder := by
  intro c new h
  induction new generalizing c with
  | nil => exact (List.take_of_length_le h).symm
  | cons l new ih =>
    have hins : c.insert l.addr l.word = (l :: c).take 16 := Cache.insert_eq_cons_take h ..
    calc (l :: new).foldl (fun (d : Cache) l => d.insert l.addr l.word) c
        = new.foldl (fun (d : Cache) l => d.insert l.addr l.word) ((l :: c).take 16) := by rw [List.foldl_cons, hins]
      _ = (new.reverse ++ (l :: c).take 16).take 16 := ih _ (List.length_take_le ..)
      _ = (new.reverse ++ l :: c).take 16 := by
        rw [List.take_append, List.take_append, List.take_take, Nat.min_eq_left (Nat.sub_le ..)]
      _ = ((l :: new).reverse ++ c).take 16 := by rw [List.reverse_cons, List.append_assoc, List.singleton_append]

/-! ## The host's hand on the store (R66, R67, R87) -/

theorem cap_of_expanded {s : State} (h : s.expanded = true) : s.cap = 4096 := by
  rw [State.cap, h]
  rfl

theorem cap_of_not_expanded {s : State} (h : s.expanded = false) : s.cap = 2048 := by
  rw [State.cap, h]
  rfl

theorem expand_of_not_expanded {s : State} (h : s.expanded = false) :
    expand s = ({ s with mem := s.mem.keepBelow 2048, expanded := true }, .ok) := by
  rw [expand, h]
  rfl

theorem expand_of_expanded {s : State} (h : s.expanded = true) : expand s = (s, .alreadyExpanded) := if_pos h

/-- Settles O45: the words from the old capacity on are cleared as the capacity grows over them. -/
theorem expandDoublesOnce : Obligations.ExpandDoublesOnce := fun s =>
  ⟨expand_of_expanded, fun h => ⟨_, expand_of_not_expanded h, rfl, cap_of_expanded rfl,
    fun a ha _ => (Memory.readWord_keepBelow s.mem 2048 a).trans (if_neg (Nat.not_lt.mpr ha)),
    fun a ha => (Memory.readWord_keepBelow s.mem 2048 a).trans (if_pos ha)⟩⟩

/-- Settles O46: the words below 32, or below 0, are kept, and a machine with no line is coherent. -/
theorem storeResetZeroesWords : Obligations.StoreResetZeroesWords := by
  refine fun s keep => ⟨_, rfl, rfl, cap_of_not_expanded rfl, .of_cache_nil rfl, fun a => ?_⟩
  refine (Memory.readWord_keepBelow s.mem _ a).trans ?_
  cases keep with
  | true => simp only [if_true, Config.params, true_and, State.word]
  | false => simp only [Bool.false_eq_true, if_false, Nat.not_lt_zero, false_and]

/-- Settles O47: the cache is as it was, so the line there was is still what a cached read finds. -/
theorem rawStoreBypassesCache : Obligations.RawStoreBypassesCache := by
  refine fun s a v => ⟨rawStore_of_ge v, fun ha => ⟨_, rawStore_of_lt v ha, rfl, Memory.readWord_writeWord_same ..,
    fun _ hb => Memory.readWord_writeWord_other s.mem v hb, fun hs l hl hla => cachedRead_of_hit ?_⟩⟩
  calc s.cache.lookup a
      = some l.word := hla ▸ Cache.lookup_of_mem hs.2 hl
    _ = some (s.word a) := by rw [← (hs.1 l hl).2, hla]

/-! ## What each access does to the invariant (R68, R74) -/

/-- The word a read finds in a coherent machine, in the cache or in the store, is the store's. -/
theorem State.Coherent.of_found {s : State} (hs : s.Coherent) {a : Nat} {w : Word}
    (h : s.cache.lookup a = some w ∨ (s.cache.lookup a = none ∧ a < s.cap ∧ w = s.word a)) : a < s.cap ∧ w = s.word a :=
  h.elim hs.lookup_eq And.right

/-- A word written behind the cache keeps coherence when no line is for it (R330). -/
theorem State.Coherent.writeWord {s : State} (hs : s.Coherent) {a : Nat} (v : Word) (h : ∀ l ∈ s.cache, l.addr ≠ a) :
    ({ s with mem := s.mem.writeWord a v } : State).Coherent :=
  ⟨fun l hl => ⟨(hs.1 l hl).1, (Memory.readWord_writeWord_other _ v (h l hl)).trans (hs.1 l hl).2⟩, hs.2⟩

/-- Every line is below the old capacity, where the expansion keeps the words (R66). -/
theorem State.Coherent.expand {s : State} (hs : s.Coherent) (h : s.expanded = false) :
    ({ s with mem := s.mem.keepBelow 2048, expanded := true } : State).Coherent := by
  refine ⟨fun l hl => ?_, hs.2⟩
  obtain ⟨hlt, hword⟩ := hs.1 l hl
  have hlow : l.addr < 2048 := cap_of_not_expanded h ▸ hlt
  exact ⟨lt_cap_of_lt hlow, ((Memory.readWord_keepBelow s.mem 2048 l.addr).trans (if_pos hlow)).trans hword⟩

namespace State.MemoryInvariant

variable {s t : State}

/-- The invariant depends on the store, the cache and the capacity alone. -/
theorem congr (hs : s.MemoryInvariant) (hm : t.mem = s.mem) (hc : t.cache = s.cache) (he : t.expanded = s.expanded) :
    t.MemoryInvariant where
  coherent := hs.coherent.congr hm hc he
  lines := hc ▸ hs.lines
  canonical := hm ▸ hs.canonical
  bounded := by rw [hm, cap_eq_of_expanded he]; exact hs.bounded

theorem afterRead (hs : s.MemoryInvariant) {a : Nat} (ha : a < s.cap) : (s.afterRead a).MemoryInvariant where
  coherent := hs.coherent.afterRead ha
  lines := Cache.length_afterRead hs.lines
  canonical := hs.canonical
  bounded := hs.bounded

theorem afterWrite (hs : s.MemoryInvariant) {a : Nat} (v : Word) (ha : a < s.cap) :
    (s.afterWrite a v).MemoryInvariant where
  coherent := hs.coherent.afterWrite v ha
  lines := Cache.length_afterWrite hs.lines
  canonical := Memory.wf_writeWord a v hs.canonical
  bounded := Memory.below_writeWord v ha hs.bounded

/-- A raw store within the host's duty (R330). -/
theorem writeWord (hs : s.MemoryInvariant) {a : Nat} (v : Word) (ha : a < s.cap) (h : ∀ l ∈ s.cache, l.addr ≠ a) :
    ({ s with mem := s.mem.writeWord a v } : State).MemoryInvariant where
  coherent := hs.coherent.writeWord v h
  lines := hs.lines
  canonical := Memory.wf_writeWord a v hs.canonical
  bounded := Memory.below_writeWord v ha hs.bounded

theorem expand (hs : s.MemoryInvariant) (h : s.expanded = false) :
    ({ s with mem := s.mem.keepBelow 2048, expanded := true } : State).MemoryInvariant where
  coherent := hs.coherent.expand h
  lines := hs.lines
  canonical := Memory.wf_keepBelow 2048 hs.canonical
  bounded := Memory.below_keepBelow s.mem (by rw [cap_of_expanded rfl]; decide)

/-- A store cleared from a word below `C0` on, with the cache emptied (R67). -/
theorem of_cleared {n : Nat} (hs : s.MemoryInvariant) (hn : n ≤ 2048) (hm : t.mem = s.mem.keepBelow n)
    (hc : t.cache = []) (he : t.expanded = false) : t.MemoryInvariant where
  coherent := .of_cache_nil hc
  lines := hc ▸ Nat.zero_le _
  canonical := hm ▸ Memory.wf_keepBelow n hs.canonical
  bounded := by rw [hm, cap_of_not_expanded he]; exact Memory.below_keepBelow s.mem hn

end State.MemoryInvariant

/-! ## What every step keeps -/

theorem Keeps.memSide {s t : State} {r : Result} (h : Keeps s r) (hr : r = .next t) : MemSide s t := by
  obtain ⟨u, hu, hm⟩ := h
  cases hu.symm.trans hr
  exact hm

theorem MemSide.coherent {s t : State} (h : MemSide s t) (hs : s.Coherent) : t.Coherent := by
  induction h with
  | keep hm hc he => exact hs.congr hm hc he
  | read a w _ hw hm hc he ih =>
    obtain ⟨ha, rfl⟩ := ih.of_found hw
    exact (ih.afterRead ha).congr hm hc he
  | write a v _ ha _ hm hc he ih => exact (ih.afterWrite v ha).congr hm hc he

theorem MemSide.memoryInvariant {s t : State} (h : MemSide s t) (hs : s.MemoryInvariant) : t.MemoryInvariant := by
  induction h with
  | keep hm hc he => exact hs.congr hm hc he
  | read a w _ hw hm hc he ih =>
    obtain ⟨ha, rfl⟩ := ih.coherent.of_found hw
    exact (ih.afterRead ha).congr hm hc he
  | write a v _ ha _ hm hc he ih => exact (ih.afterWrite v ha).congr hm hc he

/-- The engine writes a reserved word in the two return slots alone (R80, R286). -/
theorem MemSide.word_of_reserved {s t : State} (h : MemSide s t) {a : Nat} (ha : a ≤ 27) (h2 : a ≠ 2) (h4 : a ≠ 4) :
    t.word a = s.word a := by
  induction h with
  | keep hm _ _ => exact word_eq_of_mem hm a
  | read _ _ _ _ hm _ _ ih => exact (word_eq_of_mem hm a).trans ih
  | @write t u b v _ _ hb hm _ _ ih =>
    have hne : a ≠ b := by omega
    calc u.word a = (t.mem.writeWord b v).readWord a := by rw [State.word, hm]
      _ = t.word a := Memory.readWord_writeWord_other t.mem v hne
      _ = s.word a := ih

/-- Settles O54: a step is some accesses of the engine, each of which keeps the invariant. -/
theorem stepKeepsMemoryInvariant : Obligations.StepKeepsMemoryInvariant := fun s _ hs ht =>
  ((step_keeps s).memSide ht).memoryInvariant hs

/-- Settles O57: no access of the engine writes such a word. -/
theorem stepKeepsReservedWords : Obligations.StepKeepsReservedWords := fun s _ _ ht ha h2 h4 =>
  ((step_keeps s).memSide ht).word_of_reserved ha h2 h4

/-! ## What every host call keeps (R318) -/

/-- The memory side of the second state is that of the first after one call of the host, within its duty (R330): accesses
of the engine, raw stores, a store cleared from a word on with the cache emptied, an expansion. -/
inductive HostSide (s : State) : State → Prop
  | engine {t : State} : MemSide s t → HostSide s t
  | raw {t u : State} (a : Nat) (v : Word) : HostSide s t → a < t.cap → (∀ l ∈ t.cache, l.addr ≠ a) →
      u.mem = t.mem.writeWord a v → u.cache = t.cache → u.expanded = t.expanded → HostSide s u
  | clear {t : State} (n : Nat) : n ≤ 2048 → t.mem = s.mem.keepBelow n → t.cache = [] → t.expanded = false →
      HostSide s t
  | expand {t : State} : s.expanded = false → t.mem = s.mem.keepBelow 2048 → t.cache = s.cache → t.expanded = true →
      HostSide s t

theorem HostSide.coherent {s t : State} (h : HostSide s t) (hs : s.Coherent) : t.Coherent := by
  induction h with
  | engine h => exact h.coherent hs
  | raw a v _ _ hd hm hc he ih => exact (ih.writeWord v hd).congr hm hc he
  | clear n _ _ hc _ => exact .of_cache_nil hc
  | expand hexp hm hc he => exact (hs.expand hexp).congr hm hc he

theorem HostSide.memoryInvariant {s t : State} (h : HostSide s t) (hs : s.MemoryInvariant) : t.MemoryInvariant := by
  induction h with
  | engine h => exact h.memoryInvariant hs
  | raw a v _ ha hd hm hc he ih => exact (ih.writeWord v ha hd).congr hm hc he
  | clear n hn hm hc he => exact hs.of_cleared hn hm hc he
  | expand hexp hm hc he => exact (hs.expand hexp).congr hm hc he

theorem HostSide.refl (s : State) : HostSide s s := .engine (.refl s)

theorem HostSide.rawStore {s t : State} {a : Nat} (h : HostSide s t) (v : Word) (hd : ∀ l ∈ t.cache, l.addr ≠ a) :
    HostSide s (rawStore a v t).1 := by
  by_cases ha : a < t.cap
  · rw [rawStore_of_lt v ha]
    exact .raw a v h ha hd rfl rfl rfl
  · rwa [rawStore_of_ge v (Nat.le_of_not_lt ha)]

/-- An image is loaded with the cache empty, so that each of its raw stores is within the duty (R315, R330). -/
theorem HostSide.rawStores {s t : State} (h : HostSide s t) (hc : t.cache = []) (image : List (Nat × Word)) :
    HostSide s (rawStores image t) := by
  induction image generalizing t with
  | nil => exact h
  | cons p image ih =>
    have hd : ∀ l ∈ t.cache, l.addr ≠ p.1 := by simp [hc]
    obtain ⟨m, hm⟩ := rawStore_frame p.1 p.2 t
    have hempty : (Machine.rawStore p.1 p.2 t).1.cache = [] := by rw [hm]; exact hc
    exact ih (h.rawStore p.2 hd) hempty

theorem hostSide_storeReset (keep : Bool) (s : State) : HostSide s (storeReset keep s) :=
  .clear (if keep then Config.params.keepWords else 0) (by cases keep <;> decide) rfl rfl rfl

theorem hostSide_powerOn (s : State) : HostSide s (powerOn s) :=
  .clear 0 (Nat.zero_le _) (by simp [powerOn, State.reset, Memory.keepBelow]) rfl rfl

theorem hostSide_expand (s : State) : HostSide s (expand s).1 := by
  cases h : s.expanded with
  | true => rw [expand_of_expanded h]; exact .refl s
  | false => rw [expand_of_not_expanded h]; exact .expand h rfl rfl rfl

/-- A register write changes registers alone (R45). -/
theorem setRegister_frame (n v : Int) (s : State) :
    ∃ r x pc ir cc mar mbr mfr, setRegister n v s =
      { s with r := r, x := x, pc := pc, ir := ir, cc := cc, mar := mar, mbr := mbr, mfr := mfr } := by
  unfold setRegister
  split
  · exact ⟨_, _, _, _, _, _, _, _, writeSlot_frame ..⟩
  · exact ⟨_, _, _, _, _, _, _, _, rfl⟩

theorem setRegister_memSide (n v : Int) (s : State) : MemSide s (setRegister n v s) := by
  obtain ⟨r, x, pc, ir, cc, mar, mbr, mfr, h⟩ := setRegister_frame n v s
  rw [h]
  exact .keep rfl rfl rfl

theorem executeRaw_memSide {w : Word} {s t : State} (h : executeRaw w s = .next t) : MemSide s t :=
  have hir : MemSide s { s with ir := w } := .keep rfl rfl rfl
  hir.trans ((decodeExecute_keeps _).memSide h)

/-- What one call of the host can do to the memory side. -/
theorem hostCall_hostSide {c : HostCall} {s t : State} (hd : c.DutyKept s) (h : hostCall c s = .next t) :
    HostSide s t := by
  cases c with
  | step => exact .engine ((step_keeps s).memSide h)
  | executeRaw w => exact .engine (executeRaw_memSide h)
  | powerOn => cases h; exact hostSide_powerOn s
  | storeReset keep => cases h; exact hostSide_storeReset keep s
  | rawStore a v => cases h; exact (HostSide.refl s).rawStore v (hd a v rfl)
  | rawLoad | getRegister => cases h; exact .refl s
  | setRegister n v => cases h; exact .engine (setRegister_memSide n v s)
  | fillQueue words => cases h; exact .engine (.keep rfl rfl rfl)
  | expand => cases h; exact hostSide_expand s
  | load keep image => cases h; exact (hostSide_storeReset keep s).rawStores rfl image

theorem step_readings {s t : State} (h : step s = .next t) : t.readings = s.readings := by
  obtain rfl | ⟨w, u, hf, hd⟩ := step_cases h
  · rfl
  · obtain rfl := fetch_ok hf
    obtain ⟨_, he, -, -, hr⟩ := decodeExecute_effect hd
    exact he.frame .readings hr

theorem executeRaw_readings {w : Word} {s t : State} (h : executeRaw w s = .next t) : t.readings = s.readings := by
  obtain ⟨_, he, -, -, hr⟩ := decodeExecute_effect (s := { s with ir := w }) h
  exact he.frame .readings hr

/-- The readings of R9 are no state: nothing the host can call changes them (log 8). -/
theorem hostCall_readings {c : HostCall} {s t : State} (h : hostCall c s = .next t) : t.readings = s.readings := by
  cases c with
  | step => exact step_readings h
  | executeRaw w => exact executeRaw_readings h
  | powerOn | storeReset | rawLoad | getRegister | fillQueue => cases h; rfl
  | rawStore a v =>
    obtain ⟨m, hm⟩ := rawStore_frame a v s
    cases h
    rw [hm]
  | setRegister n v =>
    obtain ⟨_, _, _, _, _, _, _, _, hs⟩ := setRegister_frame n v s
    cases h
    rw [hs]
  | expand =>
    cases h
    cases he : s.expanded with
    | true => rw [expand_of_expanded he]
    | false => rw [expand_of_not_expanded he]
  | load keep image =>
    obtain ⟨m, hm⟩ := rawStores_frame image (storeReset keep s)
    cases h
    rw [loadImage, hm]
    rfl

/-- Settles O55: what a call of the host can do to the memory side keeps the invariant. -/
theorem hostCallsKeepMemoryInvariant : Obligations.HostCallsKeepMemoryInvariant := fun _ _ _ hd hs h =>
  ⟨(hostCall_hostSide hd h).memoryInvariant hs, hostCall_readings h⟩

/-! ## A stored word is fetched (R85) -/

/-- STR with its address resolved is the checked store of its register (R162). -/
theorem execStr_of_resolveEA {r : GReg} {ix : Option XReg} {ind : Bool} {addr ea : Nat} {s u : State}
    (h : resolveEA ix ind addr s = .ok ea u) : exec (.str r ix ind addr) s = storeChecked ea (s.r.get r) u := by
  have hr : u.r = s.r := by rw [resolveEA_ok h]
  change execStr r ix ind addr s = _
  rw [execStr, h, Access.andThen_ok, hr]

/-- So is STX of its index register, at the address either reading of R141 gives (R166). -/
theorem execStx_of_resolveEA {j : XReg} {ind : Bool} {addr ea : Nat} {s u : State}
    (h : resolveEA (movedIndex (some j) s) ind addr s = .ok ea u) :
    exec (.stx (some j) ind addr) s = storeChecked ea (s.x.get j) u := by
  have hx : u.x = s.x := by rw [resolveEA_ok h]
  change execStx (some j) ind addr s = _
  rw [execStx, h, Access.andThen_ok, hx]

/-- After a checked store above 27 and in range the store holds the word (R162, R166). -/
theorem word_of_storeChecked {ea : Nat} {v : Word} {s t : State} (hlo : 27 < ea) (hhi : ea < s.cap)
    (h : storeChecked ea v s = .next t) : t.word ea = v := by
  rw [storeChecked_of_lt v hlo hhi] at h
  cases h
  exact afterWrite_word_same s ea v

/-- A coherent machine stays coherent and keeps the word, along steps and host calls that do not change it. -/
theorem ReachesKeepingWord.coherent_word {a : Nat} {s t : State} (h : ReachesKeepingWord a s t) (hs : s.Coherent) :
    t.Coherent ∧ t.word a = s.word a := by
  induction h with
  | refl => exact ⟨hs, rfl⟩
  | call c _ hd hc hw ih =>
    obtain ⟨hcoh, hword⟩ := ih
    exact ⟨(hostCall_hostSide hd hc).coherent hcoh, hw.trans hword⟩

/-- A step whose fetch succeeds runs the instruction the word is (R133, R134). -/
theorem step_of_fetch {s u : State} {w : Word} {i : Instr} (hf : fetch s = .ok w u)
    (hd : decode u.readings.lrBit u.ir = .ok i) : step s = exec i u := by
  change stepEngine s = _
  rw [stepEngine, hf, Access.andThen_ok, decodeExecute, hd]

/-- Settles O60: both instructions are a checked store, after which the store holds the word; the machine is coherent then
and at every later state, so the fetch gives the word of the store. -/
theorem storeIsSeenByFetch : Obligations.StoreIsSeenByFetch := by
  intro s s1 t u i ind addr ea v hs hlo hhi hi ht hreach hpc hcap
  have hstore : ∃ ix, resolveEA ix ind addr s = .ok ea s1 ∧ exec i s = storeChecked ea v s1 := by
    obtain ⟨r, ix, rfl, hr, rfl⟩ | ⟨j, rfl, rfl, hr⟩ := hi
    · exact ⟨_, hr, execStr_of_resolveEA hr⟩
    · exact ⟨_, hr, execStx_of_resolveEA hr⟩
  obtain ⟨ix, hr, hexec⟩ := hstore
  have hcap1 : s1.cap = s.cap := cap_eq_of_expanded (by rw [resolveEA_ok hr])
  have hword : t.word ea = v := word_of_storeChecked hlo (hcap1 ▸ hhi) (hexec.symm.trans ht)
  obtain ⟨hcoh, hkept⟩ := hreach.coherent_word (((exec_keeps i s).memSide ht).coherent hs)
  have hfetch : fetch u = .ok v u.fetched := by
    rw [fetch_of_lt hcoh (hpc.symm ▸ hcap), hpc, hkept, hword]
  have hir : u.fetched.ir = v := by rw [fetched_ir, hpc, hkept, hword]
  exact ⟨_, hfetch, fun k hk => step_of_fetch hfetch (hir.symm ▸ hk)⟩

end Sys2Proof.Machine
end

section
/-! The encoding of 30_encoding.md, settled: decode and encode are inverse to each other up to the bits a format does
not read, and the opcode alone decides whether a word is an instruction. The cases go by which fields a format reads
(R102 to R105): what `Instr.readBits` keeps of a word is `encWord` of those fields, the others 0. -/

namespace Sys2Proof

/-! ## The fields as numbers -/

@[simp] theorem GReg.number_ofField (b : BitVec 2) : (GReg.ofField b).number = b.toNat := by
  revert b; decide

@[simp] theorem XReg.number_ofField (b : BitVec 2) : XReg.number (XReg.ofField b) = b.toNat := by
  revert b; decide

@[simp] theorem Cond.number_ofField (b : BitVec 2) : (Cond.ofField b).number = b.toNat := by
  revert b; decide

/-- The opcode as the spec writes it (R101, R107). -/
theorem opField_toNat (w : Word) : (opField w).toNat = w.toNat / 1024 := by
  rw [opField, BitVec.extractLsb'_toNat, Nat.shiftRight_eq_div_pow]
  omega

@[simp] theorem indNumber_false : indNumber false = 0 := rfl

theorem indNumber_indField (w : Word) : indNumber (indField w) = w.toNat / 32 % 2 := by
  rw [indField, BitVec.getLsbD, Nat.testBit_eq_decide_div_mod_eq]
  obtain hbit | hbit := Nat.mod_two_eq_zero_or_one (w.toNat / 32) <;> simp [indNumber, hbit]

/-- R114's word of a word's own fields is the word (R101). -/
theorem encWord_fields (w : Word) :
    encWord (opField w).toNat (rField w).toNat (ixField w).toNat (indNumber (indField w)) (addrField w) = w := by
  apply BitVec.eq_of_toNat_eq
  rw [encWord_toNat (opField w).isLt (rField w).isLt (ixField w).isLt (indNumber_lt _) (addrField_lt w),
    indNumber_indField]
  simp only [opField, rField, ixField, addrField, BitVec.extractLsb'_toNat, Nat.shiftRight_eq_div_pow]
  omega

/-! ## Decoding an encoded instruction -/

/-- The fields of R114's word are the numbers it was built from, and each operand is read back from its number. The
cases are formats B, D, C and A, with HLT and IN, which read no 5-bit number, beside B (R102 to R105). -/
theorem decode_encode (lr : Config.LRBit) {i : Instr} (h : i.wf = true) : decode lr (encode lr i) = .ok i := by
  cases i with
  | hlt | mlt | dvd | trr | and | orr | not | input =>
    simp [encode, decode, opField_encWord, rField_encWord, ixField_encWord, GReg.number_lt]
  | rfs n | trap n | air _ n | sir _ n | output _ n =>
    have hn : n < 32 := fits5_iff.mp h
    simp [encode, decode, opField_encWord, rField_encWord, addrField_encWord, GReg.number_lt, hn]
  | src _ _ n | rrc _ _ n =>
    have hn : n < 32 := fits5_iff.mp h
    simp [encode, decode, opField_encWord, rField_encWord, dirField_encWord, addrField_encWord, GReg.number_lt,
      Direction.number_lt, hn]
  | ldr _ _ _ n | str _ _ _ n | lda _ _ _ n | amr _ _ _ n | smr _ _ _ n | jz _ _ _ n | jne _ _ _ n | jcc _ _ _ n
  | jma _ _ n | jsr _ _ n | sob _ _ _ n | jge _ _ _ n | ldx _ _ n | stx _ _ n =>
    have hn : n < 32 := fits5_iff.mp h
    simp only [encode, decode, opField_encWord, rField_encWord, ixField_encWord, indField_encWord, addrField_encWord,
      GReg.number_lt, XReg.number_lt, Cond.number_lt, indNumber_lt, hn, Nat.reduceLT, Nat.ofNat_pos,
      GReg.ofField_number, XReg.ofField_number, Cond.ofField_number, indNumber_eq_one]

/-- Settles O1, by the formats of R102 to R105. -/
theorem decodeUndoesEncode : Obligations.DecodeUndoesEncode := fun lr _ h => decode_encode lr h

/-! ## The masks of the formats -/

/-- The mask of all opcode bits and the given bits of the other fields: the shape of every `Instr.readBits`. -/
def fieldMask (r ix : BitVec 2) (ind : Bool) (addr : BitVec 5) : Word :=
  encWord 63 r.toNat ix.toNat (indNumber ind) addr.toNat

section
variable (w m : Word) (r ix : BitVec 2) (ind : Bool) (addr : BitVec 5)

theorem opField_and : opField (w &&& m) = opField w &&& opField m := BitVec.extractLsb'_and

theorem rField_and : rField (w &&& m) = rField w &&& rField m := BitVec.extractLsb'_and

theorem ixField_and : ixField (w &&& m) = ixField w &&& ixField m := BitVec.extractLsb'_and

theorem indField_and : indField (w &&& m) = (indField w && indField m) := BitVec.getLsbD_and

theorem addrField_and : addrField (w &&& m) = addrField w &&& addrField m := by
  rw [addrField, BitVec.extractLsb'_and, BitVec.toNat_and, addrField, addrField]

theorem opField_fieldMask : opField (fieldMask r ix ind addr) = BitVec.allOnes 6 :=
  BitVec.eq_of_toNat_eq (opField_encWord (by decide) r.isLt ix.isLt (indNumber_lt ind) addr.isLt)

theorem rField_fieldMask : rField (fieldMask r ix ind addr) = r := by
  rw [fieldMask, rField_encWord (by decide) r.isLt ix.isLt (indNumber_lt ind) addr.isLt, BitVec.ofNat_toNat,
    BitVec.setWidth_eq]

theorem ixField_fieldMask : ixField (fieldMask r ix ind addr) = ix := by
  rw [fieldMask, ixField_encWord (by decide) r.isLt ix.isLt (indNumber_lt ind) addr.isLt, BitVec.ofNat_toNat,
    BitVec.setWidth_eq]

theorem indField_fieldMask : indField (fieldMask r ix ind addr) = ind := by
  rw [fieldMask, indField_encWord (by decide) r.isLt ix.isLt (indNumber_lt ind) addr.isLt, indNumber_eq_one]

theorem addrField_fieldMask : addrField (fieldMask r ix ind addr) = addr.toNat :=
  addrField_encWord (by decide) r.isLt ix.isLt (indNumber_lt ind) addr.isLt

/-- Masking a word masks each of its fields. -/
theorem and_fieldMask :
    w &&& fieldMask r ix ind addr =
      encWord (opField w).toNat (rField w &&& r).toNat (ixField w &&& ix).toNat (indNumber (indField w && ind))
        (addrField w &&& addr.toNat) := by
  rw [← encWord_fields (w &&& fieldMask r ix ind addr), opField_and, rField_and, ixField_and, indField_and,
    addrField_and, opField_fieldMask, rField_fieldMask, ixField_fieldMask, indField_fieldMask, addrField_fieldMask,
    BitVec.and_allOnes]

end

@[simp] theorem toNat_and_three (b : BitVec 2) : b.toNat &&& 3 = b.toNat :=
  Nat.and_two_pow_sub_one_of_lt_two_pow (n := 2) b.isLt

@[simp] theorem addrField_and_thirtyOne (w : Word) : addrField w &&& 31 = addrField w :=
  Nat.and_two_pow_sub_one_of_lt_two_pow (n := 5) (addrField_lt w)

/-- What HLT reads (R105, R110). -/
theorem and_bareMask (w : Word) : w &&& 0xFC00 = encWord (opField w).toNat 0 0 0 0 :=
  (and_fieldMask w 0 0 false 0).trans (by simp)

/-- What NOT and IN read (R103, R105). -/
theorem and_registerMask (w : Word) : w &&& 0xFF00 = encWord (opField w).toNat (rField w).toNat 0 0 0 :=
  (and_fieldMask w 3 0 false 0).trans (by simp)

/-- What format B reads, the second register in the index field (R103). -/
theorem and_registerPairMask (w : Word) :
    w &&& 0xFFC0 = encWord (opField w).toNat (rField w).toNat (ixField w).toNat 0 0 :=
  (and_fieldMask w 3 3 false 0).trans (by simp)

/-- What RFS and TRAP read (R105). -/
theorem and_numberMask (w : Word) : w &&& 0xFC1F = encWord (opField w).toNat 0 0 0 (addrField w) :=
  (and_fieldMask w 0 0 false 31).trans (by simp)

/-- What AIR, SIR and OUT read (R105). -/
theorem and_registerNumberMask (w : Word) :
    w &&& 0xFF1F = encWord (opField w).toNat (rField w).toNat 0 0 (addrField w) :=
  (and_fieldMask w 3 0 false 31).trans (by simp)

/-- What JMA, JSR, LDX and STX read: format A without the register (R102). -/
theorem and_addressMask (w : Word) :
    w &&& 0xFCFF = encWord (opField w).toNat 0 (ixField w).toNat (indNumber (indField w)) (addrField w) :=
  (and_fieldMask w 0 3 true 31).trans (by simp)

/-- What the other instructions of format A read: every field (R102). -/
theorem and_memoryMask (w : Word) :
    w &&& 0xFFFF =
      encWord (opField w).toNat (rField w).toNat (ixField w).toNat (indNumber (indField w)) (addrField w) :=
  (and_fieldMask w 3 3 true 31).trans (by simp)

/-- The direction's number is the index field with only the bit at `LR_BIT` kept (R104). -/
theorem number_dirField (lr : Config.LRBit) (w : Word) :
    (dirField lr w).number lr = (ixField w &&& 1#2 <<< (lr.number - 6)).toNat := by
  have hbit : w.getLsbD lr.number = (ixField w).getLsbD (lr.number - 6) := by
    cases lr <;> simp [ixField, Config.LRBit.number]
  rw [dirField, hbit]
  generalize ixField w = b
  revert b
  cases lr <;> decide

/-- What format C reads (R104). -/
theorem and_shiftMask (lr : Config.LRBit) (w : Word) :
    w &&& (0xFF1F ||| (1#16 <<< lr.number)) =
      encWord (opField w).toNat (rField w).toNat ((dirField lr w).number lr) 0 (addrField w) := by
  have hmask : 0xFF1F ||| (1#16 <<< lr.number) = fieldMask 3 (1#2 <<< (lr.number - 6)) false 31 := by
    cases lr <;> rfl
  rw [hmask, and_fieldMask, ← number_dirField]
  simp

/-! ## What decoding can answer -/

/-- The instruction a word decodes to: its opcode and its operands are the fields of the word its format reads. -/
theorem decode_ok {lr : Config.LRBit} {w : Word} {i : Instr} (h : decode lr w = .ok i) :
    i.opcode = (opField w).toNat ∧ i.wf = true ∧ encode lr i = w &&& i.readBits lr := by
  unfold decode at h
  split at h <;> cases h
  all_goals
    rename_i hop
    refine ⟨hop.symm, ?_, ?_⟩
    · simp only [Instr.wf, fits5_iff, addrField_lt]
    · simp only [encode, Instr.readBits, GReg.number_ofField, XReg.number_ofField, Cond.number_ofField, and_bareMask,
        and_registerMask, and_registerPairMask, and_numberMask, and_registerNumberMask, and_addressMask, and_memoryMask,
        and_shiftMask, hop]

/-- A word that does not decode is rejected with its opcode, which is not in the table (R108). -/
theorem decode_error {lr : Config.LRBit} {w : Word} {e : DecodeError} (h : decode lr w = .error e) :
    e = .illegalOpcode (opField w) ∧ (opField w).toNat ∉ Machine.tableOpcodes := by
  unfold decode at h
  split at h <;> cases h
  exact ⟨rfl, by simp_all [Machine.tableOpcodes]⟩

/-- The opcode alone decides whether a word decodes and which bits are read. -/
theorem decode_ok_of_opField_eq {lr : Config.LRBit} {w w' : Word} {i : Instr} (h : decode lr w = .ok i)
    (hop : opField w' = opField w) : ∃ j, decode lr w' = .ok j ∧ j.readBits lr = i.readBits lr := by
  unfold decode at h ⊢
  rw [hop]
  split at h <;> cases h
  all_goals exact ⟨_, rfl, rfl⟩

theorem Instr.opcode_mem (i : Instr) : i.opcode ∈ Machine.tableOpcodes := by
  cases i <;> simp [Instr.opcode, Machine.tableOpcodes]

/-- Settles O2, opcode by opcode in `decode_ok`. -/
theorem encodeKeepsReadBits : Obligations.EncodeKeepsReadBits := fun _ _ _ h => (decode_ok h).2

/-- Every format reads the whole opcode (R101). -/
theorem opField_readBits (lr : Config.LRBit) (i : Instr) : opField (i.readBits lr) = BitVec.allOnes 6 := by
  cases i with
  | src | rrc =>
    rw [Instr.readBits]
    cases lr <;> rfl
  | _ =>
    rw [Instr.readBits]
    rfl

theorem opField_and_readBits (lr : Config.LRBit) (w : Word) (i : Instr) :
    opField (w &&& i.readBits lr) = opField w := by
  rw [opField_and, opField_readBits, BitVec.and_allOnes]

/-- Settles O3: the other word has the same opcode, so it decodes to an instruction with the same read bits and the same
encoding, and the encoding gives the instruction back. -/
theorem ignoredBitsDoNotMatter : Obligations.IgnoredBitsDoNotMatter := by
  intro lr w w' i h hw
  have hop : opField w' = opField w := by rw [← opField_and_readBits lr w' i, hw, opField_and_readBits]
  obtain ⟨j, hj, hread⟩ := decode_ok_of_opField_eq h hop
  obtain ⟨-, hi_wf, hi⟩ := decode_ok h
  obtain ⟨-, hj_wf, hj_enc⟩ := decode_ok hj
  calc decode lr w'
    _ = .ok j := hj
    _ = decode lr (encode lr j) := (decode_encode lr hj_wf).symm
    _ = decode lr (encode lr i) := by rw [hj_enc, hi, hread, hw]
    _ = .ok i := decode_encode lr hi_wf

/-- Settles O4: what decodes has its opcode in the table, what is rejected has not. -/
theorem exactlyTheTableOpcodesDecode : Obligations.ExactlyTheTableOpcodesDecode := by
  intro lr w
  rw [← opField_toNat]
  cases hd : decode lr w with
  | ok i =>
    obtain ⟨hop, -, -⟩ := decode_ok hd
    exact ⟨fun _ => ⟨i, rfl, hop⟩, fun hout => absurd (hop ▸ i.opcode_mem) hout⟩
  | error e =>
    obtain ⟨rfl, hout⟩ := decode_error hd
    exact ⟨fun hin => absurd hin hout, fun _ => by rw [BitVec.ofNat_toNat, BitVec.setWidth_eq]⟩

/-- Settles O5: each word is evaluated. -/
theorem specExampleWordsDecode : Obligations.SpecExampleWordsDecode :=
  ⟨fun _ => ⟨rfl, rfl, rfl, rfl, rfl, rfl, rfl, rfl, rfl, rfl, rfl⟩, rfl, rfl, rfl, rfl⟩

end Sys2Proof
end

section
/-! The engine cycle of 40_engine_cycle.md, settled: the resolver, the fetch, the ends of a step, HLT, the run loop. How a
step can end is said once, in `StepEnd`. That a stall repeats rests on `Alike`: in a coherent machine neither MAR, MBR, the
cache nor how the last step ended has any say in the outcome of an instruction. -/

namespace Sys2Proof.Machine

/-! ## The resolver (R140 to R143) -/

/-- The resolver gives the effective address when the indirect fetch, if there is one, is in range. -/
theorem resolveEA_of_canResolve {s : State} (hs : s.Coherent) {ix : Option XReg} {ind : Bool} {addr : Nat}
    (h : s.CanResolve ix ind addr) :
    resolveEA ix ind addr s = .ok (s.ea ix ind addr) (s.afterResolve ix ind addr) := by
  cases ind with
  | false => rfl
  | true =>
    simp only [resolveEA, if_true, memRead_of_lt hs (h rfl)]
    rfl

/-- An indirect fetch out of range stalls the resolver, with the pointer's address in MAR (R142). -/
theorem resolveEA_of_ge {s : State} (hs : s.Coherent) {ix : Option XReg} {addr : Nat}
    (h : s.cap ≤ baseAddress ix addr s) :
    resolveEA ix true addr s = .stalled { s with mar := BitVec.ofNat 16 (baseAddress ix addr s) } := by
  simp only [resolveEA, if_true, memRead_of_ge hs h]

theorem not_canResolve_iff {s : State} {ix : Option XReg} {ind : Bool} {addr : Nat} :
    ¬ s.CanResolve ix ind addr ↔ ind = true ∧ s.cap ≤ baseAddress ix addr s := by
  rw [State.CanResolve, Classical.not_imp, Nat.not_lt]

/-- Settles O10: the resolver on both sides of `CanResolve`; the base address is its definition. -/
theorem resolverComputesEA : Obligations.ResolverComputesEA := by
  intro s ix ind addr hs
  refine ⟨resolveEA_of_canResolve hs, fun h => ?_, ?_, ?_, rfl⟩
  · obtain ⟨rfl, hge⟩ := not_canResolve_iff.mp h
    exact resolveEA_of_ge hs hge
  · rintro j rfl
    rfl
  · rintro rfl
    rfl

theorem resolveEA_false (ix : Option XReg) (addr : Nat) (s : State) :
    resolveEA ix false addr s = .ok (baseAddress ix addr s) s := rfl

/-- With the indirect bit, what follows the resolver follows a read of the pointer (R142). -/
theorem resolveEA_true_andThen (ix : Option XReg) (addr : Nat) (s : State) (k : Nat → State → Result) :
    (resolveEA ix true addr s).andThen k = (memRead (baseAddress ix addr s) s).andThen fun w u => k (u16 w) u := by
  rw [resolveEA, if_pos rfl]
  cases memRead (baseAddress ix addr s) s with
  | ok w u => rfl
  | stalled u => rfl

/-- An indirect fetch out of range stalls whatever begins with the resolver (R142, R279 case b). -/
theorem resolveEA_andThen_of_ge {s : State} (hs : s.Coherent) {ix : Option XReg} {addr : Nat}
    (h : s.cap ≤ baseAddress ix addr s) (k : Nat → State → Result) :
    (resolveEA ix true addr s).andThen k =
      .next ({ s with mar := BitVec.ofNat 16 (baseAddress ix addr s) } : State).stalledAt := by
  rw [resolveEA_of_ge hs h, Access.andThen_stalled]

/-- Settles O38: each of the fourteen begins with the resolver, LDX and STX with the index field `movedIndex` gives. -/
theorem outOfRangeIndirectStalls : Obligations.OutOfRangeIndirectStalls := by
  intro s r c ix m addr i hs hm
  refine ⟨fun hge hi => ?_, fun hge hi => ?_⟩
  · simp only [List.mem_cons, List.not_mem_nil, or_false] at hi
    rcases hi with rfl | rfl | rfl | rfl | rfl | rfl | rfl | rfl | rfl | rfl | rfl | rfl
    all_goals exact resolveEA_andThen_of_ge hs hge _
  · obtain rfl : m = movedIndex ix s := hm
    simp only [List.mem_cons, List.not_mem_nil, or_false] at hi
    rcases hi with rfl | rfl
    all_goals exact resolveEA_andThen_of_ge hs hge _

/-! ## The fetch (R132) -/

/-- After a read of an address the cache holds a line for it (R70). -/
theorem Cache.lookup_afterRead (c : Cache) (a : Nat) (w : Word) : ∃ v, (c.afterRead a w).lookup a = some v := by
  unfold Cache.afterRead
  cases h : c.lookup a with
  | some v => exact ⟨v, h⟩
  | none => exact ⟨w, if_pos rfl⟩

/-- So a second read of the address leaves the cache as it is. -/
theorem Cache.afterRead_afterRead (c : Cache) (a : Nat) (w v : Word) :
    (c.afterRead a w).afterRead a v = c.afterRead a w := by
  obtain ⟨u, hu⟩ := c.lookup_afterRead a w
  rw [Cache.afterRead, hu]

/-- A fetch out of range stalls the step: MAR alone shows it (R132). -/
theorem step_of_ge {s : State} (hs : s.Coherent) (h : s.cap ≤ s.pc.toNat) :
    step s = .next ({ s with mar := s.pc } : State).stalledAt := by
  obtain ⟨t, ht, -⟩ := step_keeps s
  obtain rfl | ⟨w, u, hf, -⟩ := step_cases ht
  · exact ht
  · rw [fetch, u16, memRead_of_ge hs h] at hf
    cases hf

theorem State.Coherent.fetched {s : State} (hs : s.Coherent) (h : s.pc.toNat < s.cap) : s.fetched.Coherent :=
  (hs.afterRead h).congr rfl rfl rfl

/-- Settles O7: the line for PC is the one the cache's lookup finds after the read. -/
theorem fetchReadsWordAtPC : Obligations.FetchReadsWordAtPC := by
  intro s hs
  refine ⟨fun h => ⟨fetch_of_lt hs h, ?_⟩, step_of_ge hs⟩
  obtain ⟨v, hv⟩ := s.cache.lookup_afterRead s.pc.toNat (s.word s.pc.toNat)
  have hword : v = s.word s.pc.toNat := ((hs.fetched h).lookup_eq hv).2
  exact ⟨_, Cache.mem_of_lookup hv, rfl, hword⟩

/-- In a coherent machine with PC in range a step runs the instruction the word at PC is (R132 to R134). -/
theorem step_of_lt {s : State} {i : Instr} (hs : s.Coherent) (h : s.pc.toNat < s.cap)
    (hi : decode s.readings.lrBit (s.word s.pc.toNat) = .ok i) : step s = exec i s.fetched :=
  step_of_fetch (fetch_of_lt hs h) hi

/-- Settles O6: the fetch leaves the fetched word in IR, where it is decoded; `executeRaw` puts its word there. -/
theorem stepRunsDecodedInstruction : Obligations.StepRunsDecodedInstruction := by
  intro s w i hi
  refine ⟨fun u hf => ?_, fun hs h hw => step_of_lt hs h (hw ▸ hi), ?_⟩
  · obtain rfl := fetch_ok hf
    exact step_of_fetch hf hi
  · rw [executeRaw, decodeExecute, hi]

/-! ## HLT (R145) -/

/-- The state HLT leaves: halted, and otherwise as before. -/
def State.haltedAt (s : State) : State := { s with engine := .halted, outcome := .halt }

theorem exec_hlt (s : State) : exec .hlt s = .next s.haltedAt := rfl

/-- Any word with opcode 0 is a HLT, whatever its other bits (R110). -/
theorem decode_eq_hlt (lr : Config.LRBit) {w : Word} (h : w &&& 0xFC00 = 0) : decode lr w = .ok .hlt :=
  ignoredBitsDoNotMatter lr 0 w .hlt rfl (h.trans BitVec.zero_and.symm)

/-- A step at a word with opcode 0 fetches it and halts. -/
theorem step_of_hlt {s : State} (hs : s.Coherent) (h : s.pc.toNat < s.cap)
    (hw : s.word s.pc.toNat &&& 0xFC00 = 0) : step s = .next s.fetched.haltedAt :=
  (step_of_lt hs h (decode_eq_hlt _ hw)).trans (exec_hlt _)

/-- To fetch and halt again at the same PC changes nothing: MAR, MBR, IR and the line for PC are there already. -/
theorem fetched_haltedAt_again (s : State) : s.fetched.haltedAt.fetched.haltedAt = s.fetched.haltedAt := by
  have hcache := s.cache.afterRead_afterRead s.pc.toNat (s.word s.pc.toNat) (s.word s.pc.toNat)
  exact congrArg (fun c => ({ s.fetched with cache := c } : State).haltedAt) hcache

/-- Settles O35: the halted machine is coherent and PC still names the HLT, so the next step halts there again. -/
theorem hltHaltsAndStays : Obligations.HltHaltsAndStays := by
  refine ⟨exec_hlt, fun s t hs h hw ht => ?_⟩
  rw [step_of_hlt hs h hw] at ht
  cases ht
  have hagain : step s.fetched.haltedAt = .next s.fetched.haltedAt.fetched.haltedAt :=
    step_of_hlt ((hs.fetched h).congr rfl rfl rfl) h hw
  exact ⟨rfl, rfl, hagain.trans (congrArg _ (fetched_haltedAt_again s))⟩

/-! ## How a step can end (R131, R135, R138) -/

/-- The second state is the first after some reads of the engine: MAR, MBR and the cache may differ, nothing else. -/
abbrev State.Accessed (s u : State) : Prop := u = { s with mar := u.mar, mbr := u.mbr, cache := u.cache }

/-- How an instruction begun in `s` can end. A stall comes before any effect but those of the engine's accesses. -/
inductive StepEnd (s : State) : State → Prop
  | next (u : State) : StepEnd s u.completed
  | halt : StepEnd s s.haltedAt
  | await : s.inq = [] → StepEnd s { s with engine := .awaitingInput, wait := .blockedWaiting, outcome := .await }
  | stall {u : State} : s.Accessed u → StepEnd s u.stalledAt

/-- The result is a next state the instruction can end in. -/
abbrev Ends (s : State) (r : Result) : Prop := ∃ t, r = .next t ∧ StepEnd s t

theorem ends_complete (s u : State) : Ends s (complete u) := ⟨_, rfl, .next u⟩

theorem ends_resolveEA {s : State} {ix : Option XReg} {ind : Bool} {addr : Nat} {k : Nat → State → Result}
    (hk : ∀ ea u, s.Accessed u → Ends s (k ea u)) : Ends s ((resolveEA ix ind addr s).andThen k) := by
  cases hr : resolveEA ix ind addr s with
  | ok ea u => exact hk ea u (resolveEA_ok hr)
  | stalled u =>
    obtain ⟨-, rfl, -⟩ := resolveEA_stalled hr
    exact ⟨_, rfl, .stall rfl⟩

theorem ends_memRead {s u : State} (hu : s.Accessed u) {a : Nat} {k : Word → State → Result}
    (hk : ∀ w v, Ends s (k w v)) : Ends s ((memRead a u).andThen k) := by
  cases hr : memRead a u with
  | ok w v => exact hk w v
  | stalled v =>
    obtain ⟨rfl, -⟩ := memRead_stalled hr
    refine ⟨_, rfl, .stall ?_⟩
    rw [hu]

theorem ends_storeChecked {s u : State} (hu : s.Accessed u) (ea : Nat) (v : Word) : Ends s (storeChecked ea v u) := by
  by_cases hp : ea ≤ 27
  · exact ⟨_, storeChecked_of_le v u hp, .next _⟩
  · by_cases hc : ea < u.cap
    · exact ⟨_, storeChecked_of_lt v (by omega) hc, .next _⟩
    · refine ⟨_, storeChecked_of_ge v (by omega), .stall ?_⟩
      rw [hu]

/-- A trap always completes: word 0 is in range, and so is word 2. -/
theorem execTrap_completes (code : Nat) (s : State) : ∃ u : State, execTrap code s = .next u.completed := by
  simp only [execTrap, saveTrapReturn_eq, Access.andThen_ok]
  split
  · exact ⟨_, raiseFault_eq _ _⟩
  · rw [vectorTrap]
    cases hr : memRead Config.params.addrTrapBase { s.afterWrite 2 (s.pc + 1) with pc := 0 } with
    | ok w u => exact ⟨_, rfl⟩
    | stalled u =>
      obtain ⟨-, -, hge⟩ := memRead_stalled hr
      exact absurd hge (Nat.not_le.mpr (lt_cap_of_lt (by decide)))

theorem execDvd_completes (rx ry : GReg) (s : State) : ∃ u : State, execDvd rx ry s = .next u.completed := by
  unfold execDvd
  split
  all_goals exact ⟨_, rfl⟩

theorem ends_execInput (r : GReg) (s : State) : Ends s (execInput r s) := by
  cases hq : s.inq with
  | nil => exact ⟨_, execInput_of_nil r hq, .await hq⟩
  | cons w rest => exact ⟨_, execInput_of_cons r hq, .next _⟩

theorem exec_ends (i : Instr) (s : State) : Ends s (exec i s) := by
  cases i with
  | hlt => exact ⟨_, rfl, .halt⟩
  | air | sir | rfs | mlt | trr | and | orr | not | src | rrc | output => exact ends_complete s _
  | ldr | amr | smr | ldx => exact ends_resolveEA fun _ _ hu => ends_memRead hu fun _ _ => ends_complete s _
  | lda | jma | jsr | jz | jne | jcc | jge | sob => exact ends_resolveEA fun _ _ _ => ends_complete s _
  | str => exact ends_resolveEA fun _ _ hu => ends_storeChecked hu ..
  | stx ix =>
    cases ix with
    | none => exact ends_resolveEA fun _ _ hu => ⟨_, rfl, .stall hu⟩
    | some j => exact ends_resolveEA fun _ _ hu => ends_storeChecked hu ..
  | dvd rx ry =>
    obtain ⟨u, hu⟩ := execDvd_completes rx ry s
    exact ⟨_, hu, .next u⟩
  | trap code =>
    obtain ⟨u, hu⟩ := execTrap_completes code s
    exact ⟨_, hu, .next u⟩
  | input r => exact ends_execInput r s

theorem exec_stepEnd {i : Instr} {s t : State} (h : exec i s = .next t) : StepEnd s t := by
  obtain ⟨u, hu, he⟩ := exec_ends i s
  cases hu.symm.trans h
  exact he

/-- So ends whatever word is in IR: a fault's dispatch completes. -/
theorem decodeExecute_stepEnd {s t : State} (h : decodeExecute s = .next t) : StepEnd s t := by
  obtain ⟨i, -, hi⟩ | rfl := decodeExecute_cases h
  · exact exec_stepEnd hi
  · exact .next _

/-- Only a stall has the outcome `Stall`. -/
theorem StepEnd.accessed_of_stall {s t : State} (h : StepEnd s t) (ho : t.outcome = .stall) :
    ∃ u, s.Accessed u ∧ t = u.stalledAt := by
  cases h with
  | stall hu => exact ⟨_, hu, rfl⟩
  | next | halt | await => cases ho

/-- Settles O9: a fetch that stalls keeps PC; after the fetch the four ends are those of the instruction. -/
theorem stepOutcomeMatchesEngineState : Obligations.StepOutcomeMatchesEngineState := by
  intro s
  obtain ⟨t, ht, -⟩ := step_keeps s
  refine ⟨t, ht, ?_⟩
  obtain rfl | ⟨w, u, hf, hd⟩ := step_cases ht
  · exact .inr (.inr (.inr ⟨rfl, rfl, rfl⟩))
  · obtain rfl := fetch_ok hf
    cases decodeExecute_stepEnd hd with
    | next => exact .inl ⟨rfl, rfl⟩
    | halt => exact .inr (.inl ⟨rfl, rfl, rfl⟩)
    | await hq => exact .inr (.inr (.inl ⟨rfl, rfl, rfl, hq⟩))
    | stall hv =>
      have hpc := congrArg State.pc hv
      exact .inr (.inr (.inr ⟨rfl, rfl, hpc⟩))

/-! ## What an outcome does not depend on (R74) -/

/-- Two coherent states that differ in nothing but MAR, MBR, the cache and how the last step ended. -/
structure State.Alike (s t : State) : Prop where
  left : s.Coherent
  right : t.Coherent
  same : t = { s with mar := t.mar, mbr := t.mbr, cache := t.cache, engine := t.engine, outcome := t.outcome }

/-- Both results are next states, with one outcome. -/
def SameOutcome (r r' : Result) : Prop := ∃ t t', r = .next t ∧ r' = .next t' ∧ t.outcome = t'.outcome

theorem sameOutcome_completed {r r' : Result} {u u' : State} (h : r = .next u.completed) (h' : r' = .next u'.completed) :
    SameOutcome r r' := ⟨_, _, h, h', rfl⟩

theorem sameOutcome_stalledAt {r r' : Result} {u u' : State} (h : r = .next u.stalledAt) (h' : r' = .next u'.stalledAt) :
    SameOutcome r r' := ⟨_, _, h, h', rfl⟩

namespace State.Alike
variable {s t : State}

theorem cap_eq (h : s.Alike t) : t.cap = s.cap := by
  rw [h.same]
  rfl

theorem word_eq (h : s.Alike t) (a : Nat) : t.word a = s.word a := by
  rw [h.same]
  rfl

theorem inq_eq (h : s.Alike t) : t.inq = s.inq := by
  rw [h.same]

theorem baseAddress_eq (h : s.Alike t) (ix : Option XReg) (addr : Nat) : baseAddress ix addr t = baseAddress ix addr s := by
  rw [h.same]
  rfl

theorem movedIndex_eq (h : s.Alike t) (ix : Option XReg) : movedIndex ix t = movedIndex ix s := by
  rw [h.same]
  rfl

theorem afterRead (h : s.Alike t) {a : Nat} (ha : a < s.cap) : (s.afterRead a).Alike (t.afterRead a) where
  left := h.left.afterRead ha
  right := h.right.afterRead (h.cap_eq ▸ ha)
  same := by
    rw [h.same]
    rfl

end State.Alike

section
variable {s t : State} (h : s.Alike t)
include h

theorem sameOutcome_memRead {a : Nat} {k k' : Word → State → Result}
    (hk : ∀ w u v, u.Alike v → SameOutcome (k w u) (k' w v)) :
    SameOutcome ((memRead a s).andThen k) ((memRead a t).andThen k') := by
  by_cases ha : a < s.cap
  · rw [memRead_of_lt h.left ha, memRead_of_lt h.right (h.cap_eq ▸ ha), h.word_eq]
    exact hk _ _ _ (h.afterRead ha)
  · have hge : s.cap ≤ a := Nat.le_of_not_lt ha
    rw [memRead_of_ge h.left hge, memRead_of_ge h.right (h.cap_eq ▸ hge)]
    exact sameOutcome_stalledAt rfl rfl

/-- The indirect fetch is a read, and without one the resolver makes no access. -/
theorem sameOutcome_resolveEA {ix : Option XReg} {ind : Bool} {addr : Nat} {k k' : Nat → State → Result}
    (hk : ∀ ea u v, u.Alike v → SameOutcome (k ea u) (k' ea v)) :
    SameOutcome ((resolveEA ix ind addr s).andThen k) ((resolveEA ix ind addr t).andThen k') := by
  cases ind with
  | false =>
    rw [resolveEA_false, resolveEA_false, h.baseAddress_eq]
    exact hk _ _ _ h
  | true =>
    rw [resolveEA_true_andThen, resolveEA_true_andThen, h.baseAddress_eq]
    exact sameOutcome_memRead h fun w u v huv => hk (u16 w) u v huv

theorem sameOutcome_storeChecked (ea : Nat) (v w : Word) : SameOutcome (storeChecked ea v s) (storeChecked ea w t) := by
  by_cases hp : ea ≤ 27
  · exact sameOutcome_completed (storeChecked_of_le v s hp) (storeChecked_of_le w t hp)
  · have hlo : 27 < ea := Nat.lt_of_not_le hp
    by_cases hc : ea < s.cap
    · exact sameOutcome_completed (storeChecked_of_lt v hlo hc) (storeChecked_of_lt w hlo (h.cap_eq ▸ hc))
    · have hge : s.cap ≤ ea := Nat.le_of_not_lt hc
      exact sameOutcome_stalledAt (storeChecked_of_ge v hge) (storeChecked_of_ge w (h.cap_eq ▸ hge))

theorem sameOutcome_execInput (r : GReg) : SameOutcome (execInput r s) (execInput r t) := by
  cases hq : s.inq with
  | nil => exact ⟨_, _, execInput_of_nil r hq, execInput_of_nil r (h.inq_eq.trans hq), rfl⟩
  | cons w rest => exact sameOutcome_completed (execInput_of_cons r hq) (execInput_of_cons r (h.inq_eq.trans hq))

/-- An instruction has the same outcome in both: its reads find the same words, its stores meet the same limits. -/
theorem exec_sameOutcome (i : Instr) : SameOutcome (exec i s) (exec i t) := by
  cases i with
  | hlt => exact ⟨_, _, exec_hlt s, exec_hlt t, rfl⟩
  | air | sir | rfs | mlt | trr | and | orr | not | src | rrc | output => exact sameOutcome_completed rfl rfl
  | ldr | amr | smr =>
    exact sameOutcome_resolveEA h fun _ _ _ hu => sameOutcome_memRead hu fun _ _ _ _ => sameOutcome_completed rfl rfl
  | lda | jma | jsr | jz | jne | jcc | jge | sob =>
    exact sameOutcome_resolveEA h fun _ _ _ _ => sameOutcome_completed rfl rfl
  | str => exact sameOutcome_resolveEA h fun _ _ _ hu => sameOutcome_storeChecked hu ..
  | ldx ix ind addr =>
    change SameOutcome (execLdx ix ind addr s) (execLdx ix ind addr t)
    rw [execLdx, execLdx, h.movedIndex_eq]
    exact sameOutcome_resolveEA h fun _ _ _ hu => sameOutcome_memRead hu fun _ _ _ _ => sameOutcome_completed rfl rfl
  | stx ix ind addr =>
    change SameOutcome (execStx ix ind addr s) (execStx ix ind addr t)
    rw [execStx, execStx, h.movedIndex_eq]
    refine sameOutcome_resolveEA h fun ea u v hu => ?_
    cases ix with
    | none => exact sameOutcome_stalledAt rfl rfl
    | some j => exact sameOutcome_storeChecked hu ..
  | dvd rx ry =>
    obtain ⟨_, hs⟩ := execDvd_completes rx ry s
    obtain ⟨_, ht⟩ := execDvd_completes rx ry t
    exact sameOutcome_completed hs ht
  | trap code =>
    obtain ⟨_, hs⟩ := execTrap_completes code s
    obtain ⟨_, ht⟩ := execTrap_completes code t
    exact sameOutcome_completed hs ht
  | input r => exact sameOutcome_execInput h r

end

/-! ## The run loop (R136, R323) -/

/-- A step that stalls had its PC out of range, or it ran a fetched instruction that stalls. -/
theorem step_stall_cases {s t : State} (hs : s.Coherent) (ht : step s = .next t) (ho : t.outcome = .stall) :
    (s.cap ≤ s.pc.toNat ∧ t = ({ s with mar := s.pc } : State).stalledAt) ∨
      (s.pc.toNat < s.cap ∧ ∃ i, decode s.readings.lrBit (s.word s.pc.toNat) = .ok i ∧ exec i s.fetched = .next t) := by
  by_cases hp : s.pc.toNat < s.cap
  · have hd : decodeExecute s.fetched = .next t := by
      rwa [step, stepEngine, fetch_of_lt hs hp, Access.andThen_ok] at ht
    obtain ⟨i, hi, he⟩ | rfl := decodeExecute_cases hd
    · exact .inr ⟨hp, i, hi, he⟩
    · cases ho
  · have hge : s.cap ≤ s.pc.toNat := Nat.le_of_not_lt hp
    rw [step_of_ge hs hge] at ht
    cases ht
    exact .inl ⟨hge, rfl⟩

/-- In what a stalled instruction leaves, the next fetch finds the same word and the instruction is in the same case. -/
theorem alike_fetched_of_stall {s u : State} (hs : s.Coherent) (hp : s.pc.toNat < s.cap) (hu : s.fetched.Accessed u)
    (hc : u.stalledAt.Coherent) : s.fetched.Alike u.stalledAt.fetched where
  left := hs.fetched hp
  right := hc.fetched (by rw [hu]; exact hp)
  same := by
    rw [hu]
    rfl

/-- A stall repeats: the next step stalls too, with the same word in IR (R279, R331). -/
theorem step_stalls_again {s t : State} (hs : s.Coherent) (ht : step s = .next t) (ho : t.outcome = .stall) :
    ∃ t', step t = .next t' ∧ t'.outcome = .stall ∧ t'.engine = .ready ∧ t'.ir = t.ir := by
  have hc : t.Coherent := ((step_keeps s).memSide ht).coherent hs
  obtain ⟨hge, rfl⟩ | ⟨hp, i, hi, he⟩ := step_stall_cases hs ht ho
  · exact ⟨_, step_of_ge hc hge, rfl, rfl, rfl⟩
  · obtain ⟨u, hu, rfl⟩ := (exec_stepEnd he).accessed_of_stall ho
    have halike := alike_fetched_of_stall hs hp hu hc
    have hpc : u.stalledAt.pc.toNat < u.stalledAt.cap := by rw [hu]; exact hp
    have hword : decode u.stalledAt.readings.lrBit (u.stalledAt.word u.stalledAt.pc.toNat) = .ok i := by rw [hu]; exact hi
    obtain ⟨v, t', hv, ht', hsame⟩ := exec_sameOutcome halike i
    cases he.symm.trans hv
    obtain ⟨v, hv, rfl⟩ := (exec_stepEnd ht').accessed_of_stall hsame.symm
    refine ⟨_, (step_of_lt hc hpc hword).trans ht', rfl, rfl, ?_⟩
    rw [hv, hu]
    rfl

theorem runStops_iff {s : State} : runStops s = true ↔ s.ir.toNat / 1024 = 0 ∨ s.engine = .awaitingInput := by
  rw [runStops, Bool.or_eq_true, beq_iff_eq, beq_iff_eq, ← opField_toNat, ← BitVec.toNat_inj]
  rfl

theorem run_of_stops {s t : State} (fuel : Nat) (ht : step s = .next t) (h : runStops t = true) :
    run (fuel + 1) s = .next (.returned t) := by
  simp only [run, ht, h, if_true]

theorem run_of_not_stops {s t : State} (fuel : Nat) (ht : step s = .next t) (h : ¬ runStops t = true) :
    run (fuel + 1) s = run fuel t := by
  simp only [run, ht, if_neg h]

/-- `run` returns only from its test (R136). -/
theorem runStops_of_returned {fuel : Nat} {s t : State} (h : run fuel s = .next (.returned t)) : runStops t = true := by
  induction fuel generalizing s with
  | zero => cases h
  | succ fuel ih =>
    obtain ⟨u, hu, -⟩ := step_keeps s
    by_cases hstop : runStops u = true
    · rw [run_of_stops fuel hu hstop] at h
      cases h
      exact hstop
    · rw [run_of_not_stops fuel hu hstop] at h
      exact ih h

/-- After a stall with no HLT in IR every further step stalls with the same IR, so the test never succeeds (R279, D22). -/
theorem run_of_stalled {s t : State} (hs : s.Coherent) (ht : step s = .next t) (ho : t.outcome = .stall)
    (hir : t.ir.toNat / 1024 ≠ 0) (fuel : Nat) : ∃ u, run fuel t = .next (.stillRunning u) := by
  induction fuel generalizing s t with
  | zero => exact ⟨t, rfl⟩
  | succ fuel ih =>
    obtain ⟨t', ht', ho', hready, hir'⟩ := step_stalls_again hs ht ho
    have hgoes : ¬ runStops t' = true := by
      rw [runStops_iff, hir', hready]
      exact fun h => h.elim hir EngineState.noConfusion
    rw [run_of_not_stops fuel ht' hgoes]
    exact ih (((step_keeps s).memSide ht).coherent hs) ht' ho' (hir' ▸ hir)

/-- Settles O50: the loop returns only from its test, a stall never meets it, and the word at PC after reset is a HLT. -/
theorem runReturnsOnlyAtHaltOrInput : Obligations.RunReturnsOnlyAtHaltOrInput := by
  refine ⟨fun fuel s t h => runStops_iff.mp (runStops_of_returned h),
    fun s t hs ht ho hir fuel => run_of_stalled hs ht ho hir fuel, fun fuel => ?_⟩
  have hstep : step State.reset = .next State.reset.fetched.haltedAt :=
    step_of_hlt (.of_cache_nil rfl) (lt_cap_of_lt (by decide)) rfl
  exact ⟨_, run_of_stops fuel hstep rfl, rfl, rfl⟩

end Sys2Proof.Machine
end

section
/-! Load and store of 41_load_store.md, settled. The loads are read off what follows the resolver, and a read at the
address it gives, in a coherent machine; STR and STX off one rule for the checked store, at whatever address the resolver
gave. -/

namespace Sys2Proof.Machine

/-! ## The operand accesses (R140, R160) -/

/-- What follows the resolver goes on at the effective address when the resolver does not stall. -/
theorem resolveEA_andThen_of_canResolve {s : State} (hs : s.Coherent) {ix : Option XReg} {ind : Bool} {addr : Nat}
    (h : s.CanResolve ix ind addr) (k : Nat → State → Result) :
    (resolveEA ix ind addr s).andThen k = k (s.ea ix ind addr) (s.afterResolve ix ind addr) := by
  rw [resolveEA_of_canResolve hs h, Access.andThen_ok]

/-- What follows the read of an operand goes on with the word of the store at the effective address. -/
theorem operand_andThen_of_lt {s : State} (hs : s.Coherent) {ix : Option XReg} {ind : Bool} {addr : Nat}
    (h : s.CanResolve ix ind addr) (hea : s.ea ix ind addr < s.cap) (k : Word → State → Result) :
    ((resolveEA ix ind addr s).andThen fun ea u => (memRead ea u).andThen k) =
      k (s.word (s.ea ix ind addr)) ((s.afterResolve ix ind addr).afterRead (s.ea ix ind addr)) := by
  have hread : s.ea ix ind addr < (s.afterResolve ix ind addr).cap := (afterResolve_cap ix ind addr s).symm ▸ hea
  rw [resolveEA_andThen_of_canResolve hs h, memRead_of_lt (hs.afterResolve h) hread, Access.andThen_ok, afterResolve_word]

/-! ## The loads (R161, R163 to R165) -/

/-- A general register load completes from a state `u` in which the accesses of `s` have been made. -/
theorem complete_advance_setR {s u : State} (hr : u.r = s.r) (hpc : u.pc = s.pc) (i : GReg) (v : Word) :
    complete (advance (setR i v u)) = .next ({ u with r := s.r.set i v, pc := s.pc + 1 } : State).completed := by
  rw [← hr, ← hpc]
  rfl

/-- So does an index register load. -/
theorem complete_advance_setField {s u : State} (hx : u.x = s.x) (hpc : u.pc = s.pc) (ix : Option XReg) (v : Word) :
    complete (advance { u with x := u.x.setField ix v }) =
      .next ({ u with x := s.x.setField ix v, pc := s.pc + 1 } : State).completed := by
  rw [← hx, ← hpc]
  rfl

section
variable {s : State} (hs : s.Coherent) {ix : Option XReg} {ind : Bool} {addr : Nat}
include hs

theorem exec_ldr_of_lt (r : GReg) (h : s.CanResolve ix ind addr) (hea : s.ea ix ind addr < s.cap) :
    exec (.ldr r ix ind addr) s =
      .next ({ (s.afterResolve ix ind addr).afterRead (s.ea ix ind addr) with
                r := s.r.set r (s.word (s.ea ix ind addr)), pc := s.pc + 1 } : State).completed := by
  change execLdr r ix ind addr s = _
  rw [execLdr, operand_andThen_of_lt hs h hea]
  exact complete_advance_setR (by simp) (by simp) r _

theorem exec_lda_of_canResolve (r : GReg) (h : s.CanResolve ix ind addr) :
    exec (.lda r ix ind addr) s =
      .next ({ s.afterResolve ix ind addr with
                r := s.r.set r (BitVec.ofNat 16 (s.ea ix ind addr)), pc := s.pc + 1 } : State).completed := by
  change execLda r ix ind addr s = _
  rw [execLda, resolveEA_andThen_of_canResolve hs h]
  exact complete_advance_setR (afterResolve_r ..) (afterResolve_pc ..) r _

/-- LDX resolves with the index field its reading gives, not with the field that names its register (R141, D5). -/
theorem exec_ldx_of_lt (h : s.CanResolve (movedIndex ix s) ind addr) (hea : s.ea (movedIndex ix s) ind addr < s.cap) :
    exec (.ldx ix ind addr) s =
      .next ({ (s.afterResolve (movedIndex ix s) ind addr).afterRead (s.ea (movedIndex ix s) ind addr) with
                x := s.x.setField ix (s.word (s.ea (movedIndex ix s) ind addr)), pc := s.pc + 1 } : State).completed := by
  change execLdx ix ind addr s = _
  rw [execLdx, operand_andThen_of_lt hs h hea]
  exact complete_advance_setField (by simp) (by simp) ix _

end

/-- Settles O11: the operand read gives the store's word, and the register write is an update. -/
theorem ldrLoadsWord : Obligations.LdrLoadsWord := fun s r _ _ _ hs h hea =>
  ⟨_, exec_ldr_of_lt hs r h hea, s.r.set_isUpdate r _, rfl⟩

/-- Settles O13: only the resolver makes an access, so the address needs no range. -/
theorem ldaLoadsAddress : Obligations.LdaLoadsAddress := fun s r _ _ _ hs h =>
  ⟨_, exec_lda_of_canResolve hs r h, s.r.set_isUpdate r _, rfl⟩

/-- Settles O14: the register the field names is updated, and with field 0 none is. -/
theorem ldxLoadsIndexRegister : Obligations.LdxLoadsIndexRegister := by
  intro s ix m ind addr hm hs h hea
  obtain rfl : m = movedIndex ix s := hm
  refine ⟨_, exec_ldx_of_lt hs h hea, ?_, ?_, rfl⟩
  · rintro j rfl
    exact s.x.set_isUpdate j _
  · rintro rfl
    rfl

/-! ## The stores (R162, R166, R170) -/

/-- The checked store at an address the resolver gave, above 27 and in range: the word there alone changes in memory, and
the registers are those before the resolver (R72, R76). -/
theorem storeChecked_of_resolveEA {s u : State} {ix : Option XReg} {ind : Bool} {addr ea : Nat}
    (h : resolveEA ix ind addr s = .ok ea u) (hlo : 27 < ea) (hhi : ea < s.cap) (v : Word) :
    ∃ t, storeChecked ea v u = .next t ∧
      t = ({ s with
              mar := BitVec.ofNat 16 ea
              mbr := v
              mem := t.mem
              cache := u.cache.afterWrite ea v
              pc := s.pc + 1 } : State).completed ∧
      t.word ea = v ∧ ∀ a, a ≠ ea → t.word a = s.word a := by
  have hu := resolveEA_ok h
  have hcap : u.cap = s.cap := cap_eq_of_expanded (by rw [hu])
  have hmem : u.mem = s.mem := by rw [hu]
  refine ⟨_, storeChecked_of_lt v hlo (hcap ▸ hhi), ?_, afterWrite_word_same u ea v, fun a ha => ?_⟩
  · rw [hu]
    rfl
  · exact (afterWrite_word_other u v ha).trans (word_eq_of_mem hmem a)

/-- Settles O12: STR is the checked store of its general register. -/
theorem strStoresWord : Obligations.StrStoresWord := by
  intro s s1 r ix ind addr ea h hlo hhi
  rw [execStr_of_resolveEA h]
  exact storeChecked_of_resolveEA h hlo hhi _

/-- Settles O15: STX is the checked store of its index register, at the address its reading gives. -/
theorem stxStoresIndexRegister : Obligations.StxStoresIndexRegister := by
  intro s s1 j m ind addr ea hm h hlo hhi
  obtain rfl : m = movedIndex (some j) s := hm
  rw [execStx_of_resolveEA h]
  exact storeChecked_of_resolveEA h hlo hhi _

/-- Settles O16: under either reading field 0 gives the resolver no index, and after it there is only the stall. -/
theorem stxWithoutIndexRegisterStalls : Obligations.StxWithoutIndexRegisterStalls := by
  intro s ind addr hs h
  change execStx none ind addr s = _
  rw [execStx, movedIndex_none, resolveEA_andThen_of_canResolve hs h, stall_eq]

end Sys2Proof.Machine
end

section
/-! Add and subtract of 42_arithmetic.md, settled. Each instruction writes one register, CC and PC; AMR and SMR do so in
the state their operand accesses leave, and their clauses on CC are read off the value an exact result leaves in it. -/

namespace Sys2Proof.Machine

/-! ## What an exact result leaves in CC (R31, R180) -/

/-- The three values tell the three ranges apart: above the signed range, below it, and inside it. -/
theorem ccOfExact_cases (x : Int) :
    (32767 < x ∧ ccOfExact x = 8) ∨ (x < -32768 ∧ ccOfExact x = 4) ∨
      (-32768 ≤ x ∧ x ≤ 32767 ∧ ccOfExact x = 0) := by
  rw [ccOfExact]
  split_ifs with hhi hlo
  · exact .inl ⟨hhi, rfl⟩
  · exact .inr (.inl ⟨hlo, rfl⟩)
  · exact .inr (.inr ⟨not_lt.mp hlo, not_lt.mp hhi, rfl⟩)

theorem ccOfExact_eq_overflow_iff (x : Int) : ccOfExact x = 8 ↔ 32767 < x := by
  obtain ⟨hx, hcc⟩ | ⟨hx, hcc⟩ | ⟨hlo, hhi, hcc⟩ := ccOfExact_cases x
  · exact iff_of_true hcc hx
  · exact iff_of_false (by rw [hcc]; decide) (by omega)
  · exact iff_of_false (by rw [hcc]; decide) (by omega)

theorem ccOfExact_eq_underflow_iff (x : Int) : ccOfExact x = 4 ↔ x < -32768 := by
  obtain ⟨hx, hcc⟩ | ⟨hx, hcc⟩ | ⟨hlo, hhi, hcc⟩ := ccOfExact_cases x
  · exact iff_of_false (by rw [hcc]; decide) (by omega)
  · exact iff_of_true hcc hx
  · exact iff_of_false (by rw [hcc]; decide) (by omega)

theorem ccOfExact_eq_or (x : Int) : ccOfExact x = 8 ∨ ccOfExact x = 4 ∨ ccOfExact x = 0 := by
  obtain ⟨_, hcc⟩ | ⟨_, hcc⟩ | ⟨_, _, hcc⟩ := ccOfExact_cases x
  · exact .inl hcc
  · exact .inr (.inl hcc)
  · exact .inr (.inr hcc)

/-! ## The instructions (R181 to R184) -/

/-- An arithmetic instruction completes from a state `u` in which the accesses of `s` have been made. -/
theorem complete_advance_setCC_setR {s u : State} (hr : u.r = s.r) (hpc : u.pc = s.pc) (c : BitVec 4) (i : GReg)
    (v : Word) :
    complete (advance (setCC c (setR i v u))) =
      .next ({ u with r := s.r.set i v, cc := c, pc := s.pc + 1 } : State).completed := by
  rw [← hr, ← hpc]
  rfl

section
variable {s : State} (hs : s.Coherent) {ix : Option XReg} {ind : Bool} {addr : Nat} (r : GReg)
  (h : s.CanResolve ix ind addr) (hea : s.ea ix ind addr < s.cap)
include hs h hea

theorem exec_amr_of_lt :
    exec (.amr r ix ind addr) s =
      .next ({ (s.afterResolve ix ind addr).afterRead (s.ea ix ind addr) with
                r := s.r.set r (s.r.get r + s.word (s.ea ix ind addr))
                cc := ccOfExact (exactSum (s.r.get r) (s.word (s.ea ix ind addr)))
                pc := s.pc + 1 } : State).completed := by
  change execAmr r ix ind addr s = _
  rw [execAmr, operand_andThen_of_lt hs h hea, trunc16_exactSum, afterRead_r, afterResolve_r]
  exact complete_advance_setCC_setR (by simp) (by simp) _ r _

theorem exec_smr_of_lt :
    exec (.smr r ix ind addr) s =
      .next ({ (s.afterResolve ix ind addr).afterRead (s.ea ix ind addr) with
                r := s.r.set r (s.r.get r - s.word (s.ea ix ind addr))
                cc := ccOfExact (exactDiff (s.r.get r) (s.word (s.ea ix ind addr)))
                pc := s.pc + 1 } : State).completed := by
  change execSmr r ix ind addr s = _
  rw [execSmr, operand_andThen_of_lt hs h hea, trunc16_exactDiff, afterRead_r, afterResolve_r]
  exact complete_advance_setCC_setR (by simp) (by simp) _ r _

end

theorem exec_air (r : GReg) (imm : Nat) (s : State) :
    exec (.air r imm) s =
      .next ({ s with
                r := s.r.set r (s.r.get r + BitVec.ofNat 16 imm)
                cc := ccOfSumImm (exactSumImm (s.r.get r) imm)
                pc := s.pc + 1 } : State).completed := by
  change execAir r imm s = _
  rw [execAir, trunc16_exactSumImm]
  exact complete_advance_setCC_setR rfl rfl _ r _

theorem exec_sir (r : GReg) (imm : Nat) (s : State) :
    exec (.sir r imm) s =
      .next ({ s with
                r := s.r.set r (s.r.get r - BitVec.ofNat 16 imm)
                cc := ccOfDiffImm (exactDiffImm (s.r.get r) imm)
                pc := s.pc + 1 } : State).completed := by
  change execSir r imm s = _
  rw [execSir, trunc16_exactDiffImm]
  exact complete_advance_setCC_setR rfl rfl _ r _

/-- Settles O18: AMR and SMR end alike but for the word `v` they write and the exact result `x` that CC tells of. -/
theorem memoryArithmetic : Obligations.MemoryArithmetic := by
  intro s r ix ind addr m hs h hea hm i v x hi
  have hexec : exec i s =
      .next ({ (s.afterResolve ix ind addr).afterRead (s.ea ix ind addr) with
                r := s.r.set r v, cc := ccOfExact x, pc := s.pc + 1 } : State).completed := by
    subst hm
    simp only [List.mem_cons, List.not_mem_nil, or_false, Prod.mk.injEq] at hi
    obtain ⟨rfl, rfl, rfl⟩ | ⟨rfl, rfl, rfl⟩ := hi
    · exact exec_amr_of_lt hs r h hea
    · exact exec_smr_of_lt hs r h hea
  exact ⟨_, hexec, s.r.set_isUpdate r v, ccOfExact_eq_overflow_iff x, ccOfExact_eq_underflow_iff x,
    ccOfExact_eq_or x, rfl⟩

/-- Settles O19: the register write is an update, and CC is the test the instruction makes of its exact result. -/
theorem immediateArithmetic : Obligations.ImmediateArithmetic := fun s r imm =>
  ⟨⟨_, exec_air r imm s, s.r.set_isUpdate r _, rfl⟩, ⟨_, exec_sir r imm s, s.r.set_isUpdate r _, rfl⟩⟩

end Sys2Proof.Machine
end

section
/-! Transfer of control of 43_transfer.md, settled. A branch is told once, as a write of PC; the conditional jumps share
one rule, in which each puts what its test says of the registers and of CC. -/

namespace Sys2Proof.Machine

/-! ## The branch and its tests (R200 to R203, R208) -/

/-- A branch writes PC and completes; a transfer not taken goes to the word after the PC of `s`, before the resolver. -/
theorem branch_eq {s u : State} (hpc : u.pc = s.pc) {taken : Bool} {p : Prop} [Decidable p] (hp : taken = true ↔ p)
    (ea : Nat) :
    branch taken ea u = .next ({ u with pc := if p then BitVec.ofNat 16 ea else s.pc + 1 } : State).completed := by
  cases taken with
  | true =>
    rw [branch_true, if_pos (hp.mp rfl)]
    rfl
  | false =>
    rw [branch_false, if_neg fun h => Bool.false_ne_true (hp.mpr h), ← hpc]
    rfl

/-- JGE's test is of the sign bit (R208). -/
theorem s16_nonneg_iff (w : Word) : 0 ≤ s16 w ↔ ¬ w.getLsbD 15 = true := by
  have hsign : w.getLsbD 15 = decide (w.toInt < 0) := (BitVec.msb_eq_getLsbD_last w).symm.trans BitVec.msb_eq_toInt
  rw [hsign, decide_eq_true_iff, not_lt, s16]

/-- JCC compares the whole of CC with the flag of its condition (R203, D8). -/
theorem condHolds_iff {c : Cond} {flag : BitVec 4}
    (h : (c, flag) ∈ [(Cond.overflow, 8#4), (Cond.underflow, 4#4), (Cond.divZero, 2#4), (Cond.equal, 1#4)])
    (cc : BitVec 4) : condHolds c cc = true ↔ cc = flag := by
  have hflag : oneHot (3 - c.number) = flag := by
    simp only [List.mem_cons, List.not_mem_nil, or_false, Prod.mk.injEq] at h
    obtain ⟨rfl, rfl⟩ | ⟨rfl, rfl⟩ | ⟨rfl, rfl⟩ | ⟨rfl, rfl⟩ := h <;> rfl
  rw [condHolds, beq_iff_eq, hflag]

/-! ## The instructions (R201 to R208) -/

section
variable {s : State} (hs : s.Coherent) {ix : Option XReg} {ind : Bool} {addr : Nat} (h : s.CanResolve ix ind addr)
include hs h

/-- The resolver runs before the test, so both outcomes start from the state it leaves; the test itself reads only
registers and CC, which the resolver keeps. -/
theorem resolveEA_branch (test : GRegs → BitVec 4 → Bool) {p : Prop} [Decidable p] (hp : test s.r s.cc = true ↔ p) :
    ((resolveEA ix ind addr s).andThen fun ea u => branch (test u.r u.cc) ea u) =
      .next (if p then ({ s.afterResolve ix ind addr with pc := BitVec.ofNat 16 (s.ea ix ind addr) } : State).completed
        else ({ s.afterResolve ix ind addr with pc := s.pc + 1 } : State).completed) := by
  rw [resolveEA_andThen_of_canResolve hs h, afterResolve_r, afterResolve_cc, branch_eq (afterResolve_pc ..) hp]
  split_ifs <;> rfl

theorem exec_jma_of_canResolve :
    exec (.jma ix ind addr) s =
      .next ({ s.afterResolve ix ind addr with pc := BitVec.ofNat 16 (s.ea ix ind addr) } : State).completed := by
  change execJma ix ind addr s = _
  rw [execJma, resolveEA_andThen_of_canResolve hs h]
  rfl

theorem exec_jsr_of_canResolve :
    exec (.jsr ix ind addr) s =
      .next ({ s.afterResolve ix ind addr with
                r := s.r.set .r3 (s.pc + 1), pc := BitVec.ofNat 16 (s.ea ix ind addr) } : State).completed := by
  change execJsr ix ind addr s = _
  rw [execJsr, resolveEA_andThen_of_canResolve hs h, ← afterResolve_r ix ind addr s, ← afterResolve_pc ix ind addr s]
  rfl

theorem exec_sob_of_canResolve (r : GReg) :
    exec (.sob r ix ind addr) s =
      .next ({ s.afterResolve ix ind addr with
                r := s.r.set r (s.r.get r - 1)
                pc := if 0 < s16 (s.r.get r - 1) then BitVec.ofNat 16 (s.ea ix ind addr)
                  else s.pc + 1 } : State).completed := by
  change execSob r ix ind addr s = _
  rw [execSob, resolveEA_andThen_of_canResolve hs h, afterResolve_r,
    branch_eq ((setR_pc ..).trans (afterResolve_pc ..)) decide_eq_true_iff, setR, afterResolve_r]

end

theorem exec_rfs (imm : Nat) (s : State) :
    exec (.rfs imm) s =
      .next ({ s with r := s.r.set .r0 (BitVec.ofNat 16 imm), pc := s.r.get .r3 } : State).completed := rfl

/-- Settles O20: the four share `resolveEA_branch`, each with what its own test says. -/
theorem conditionalJumps : Obligations.ConditionalJumps := by
  rintro s ix ind addr there next hs h rfl rfl
  refine ⟨fun r => ?jz, fun r => ?jne, fun r => ?jge, fun c flag hc => ?jcc⟩
  case jz => exact resolveEA_branch hs h (fun g _ => g.get r == 0) beq_iff_eq
  case jne =>
    rw [← ite_not]
    exact resolveEA_branch hs h (fun g _ => g.get r != 0) bne_iff_ne
  case jge =>
    rw [← ite_not]
    exact resolveEA_branch hs h (fun g _ => decide (s16 (g.get r) ≥ 0)) (decide_eq_true_iff.trans (s16_nonneg_iff _))
  case jcc => exact resolveEA_branch hs h (fun _ cc => condHolds c cc) (condHolds_iff hc s.cc)

/-- Settles O21: JSR's register write is an update of the link register. -/
theorem jumpsAndLinks : Obligations.JumpsAndLinks := fun s _ _ _ hs h =>
  ⟨exec_jma_of_canResolve hs h, _, exec_jsr_of_canResolve hs h, s.r.set_isUpdate .r3 _, rfl⟩

/-- Settles O22: RFS reads no memory, so its clause needs no premise; the return is through the `R[3]` the JSR wrote. -/
theorem rfsReturns : Obligations.RfsReturns := by
  refine ⟨fun s imm => ⟨_, exec_rfs imm s, s.r.set_isUpdate .r0 _, rfl⟩, ?_⟩
  intro s t u ix ind addr imm hs h ht hu
  refine ⟨_, exec_rfs imm u, ?_⟩
  obtain rfl := Host.Outcome.next.inj ((exec_jsr_of_canResolve hs h).symm.trans ht)
  exact hu.trans (s.r.get_set_same .r3 _)

/-- Settles O23: only the resolver makes an access, and the register is written on both outcomes of the branch. -/
theorem sobDecrementsAndBranches : Obligations.SobDecrementsAndBranches := fun s r _ _ _ hs h =>
  ⟨_, exec_sob_of_canResolve hs h r, s.r.set_isUpdate r _, rfl⟩

end Sys2Proof.Machine
end

section
/-! Register to register of 44_register_register.md, settled. MLT and DVD end alike: a pair of results written, CC set,
PC advanced; what is left of each is arithmetic on the two words. -/

namespace Sys2Proof.Machine

/-! ## The arithmetic of the pair (R221, R222) -/

/-- The two halves of a 32-bit number written as the pair of results read as that number (R221). -/
theorem setPair_halves_append {i j : GReg} (p : BitVec 32) (s : State) (h : pairRegister i = some j) :
    ((setPair i (highHalf p) (lowHalf p) s).r.get i ++ (setPair i (highHalf p) (lowHalf p) s).r.get j : BitVec 32) =
      p := by
  rw [setPair_get_first, setPair_get_second _ _ s h, highHalf_append_lowHalf]

/-- Whether or not the low half is kept, the first register holds the high half (R227). -/
theorem setPair_high_append (i : GReg) (p : BitVec 32) (w : Word) (s : State) :
    ((setPair i (highHalf p) w s).r.get i ++ lowHalf p : BitVec 32) = p := by
  rw [setPair_get_first, highHalf_append_lowHalf]

theorem quotient_mul_add_remainder (n d : Word) : n.toInt = quotient n d * d.toInt + remainder n d := by
  rw [remainder_eq_tmod]
  exact (Int.tdiv_mul_add_tmod _ _).symm

/-- The magnitude of a remainder is the natural remainder of the magnitudes. -/
theorem abs_remainder_lt (n : Word) {d : Word} (hd : d ≠ 0) : |remainder n d| < |d.toInt| := by
  have hpos : 0 < d.toInt.natAbs := Int.natAbs_pos.mpr fun h => hd (BitVec.toInt_inj.mp h)
  rw [remainder_eq_tmod, Int.abs_eq_natAbs, Int.abs_eq_natAbs, Int.natAbs_tmod, Nat.cast_lt]
  exact Nat.mod_lt _ hpos

/-- The rounding is toward zero, so a remainder that is not 0 keeps the dividend's sign (R222, D13). -/
theorem remainder_eq_zero_or_sign (n d : Word) : remainder n d = 0 ∨ (remainder n d).sign = n.toInt.sign := by
  rw [remainder_eq_tmod]
  by_cases hdvd : d.toInt ∣ n.toInt
  · exact .inl (Int.tmod_eq_zero_of_dvd hdvd)
  · exact .inr (by rw [Int.sign_tmod, if_neg hdvd])

/-! ## The comparison (R223) -/

theorem ccOfCompare_cases (a b : Word) : (a = b ∧ ccOfCompare a b = 1) ∨ (a ≠ b ∧ ccOfCompare a b = 0) := by
  by_cases h : a = b
  · exact .inl ⟨h, if_pos h⟩
  · exact .inr ⟨h, if_neg h⟩

theorem ccOfCompare_eq_equal_iff (a b : Word) : ccOfCompare a b = 1 ↔ a = b := by
  obtain ⟨h, hcc⟩ | ⟨h, hcc⟩ := ccOfCompare_cases a b
  · exact iff_of_true hcc h
  · exact iff_of_false (by rw [hcc]; decide) h

/-! ## The instructions (R221 to R226) -/

theorem exec_mlt (rx ry : GReg) (s : State) :
    exec (.mlt rx ry) s =
      .next ({ s with
                r := (setPair rx (highHalf (product32 (s.r.get rx) (s.r.get ry)))
                  (lowHalf (product32 (s.r.get rx) (s.r.get ry))) s).r
                cc := 0
                pc := s.pc + 1 } : State).completed := rfl

theorem exec_dvd_of_ne_zero {s : State} (rx : GReg) {ry : GReg} (hd : s.r.get ry ≠ 0) :
    exec (.dvd rx ry) s =
      .next ({ s with
                r := (setPair rx (trunc16 (quotient (s.r.get rx) (s.r.get ry)))
                  (trunc16 (remainder (s.r.get rx) (s.r.get ry))) s).r
                cc := 0
                pc := s.pc + 1 } : State).completed := by
  change execDvd rx ry s = _
  rw [execDvd, if_neg hd]
  rfl

theorem exec_dvd_of_eq_zero {s : State} (rx : GReg) {ry : GReg} (hd : s.r.get ry = 0) :
    exec (.dvd rx ry) s = .next ({ s with cc := 2, pc := s.pc + 1 } : State).completed := by
  change execDvd rx ry s = _
  rw [execDvd, if_pos hd]
  rfl

theorem exec_trr (rx ry : GReg) (s : State) :
    exec (.trr rx ry) s =
      .next ({ s with cc := ccOfCompare (s.r.get rx) (s.r.get ry), pc := s.pc + 1 } : State).completed := rfl

theorem exec_and (rx ry : GReg) (s : State) :
    exec (.and rx ry) s =
      .next ({ s with r := s.r.set rx (s.r.get rx &&& s.r.get ry), pc := s.pc + 1 } : State).completed := rfl

theorem exec_orr (rx ry : GReg) (s : State) :
    exec (.orr rx ry) s =
      .next ({ s with r := s.r.set rx (s.r.get rx ||| s.r.get ry), pc := s.pc + 1 } : State).completed := rfl

theorem exec_not (rx : GReg) (s : State) :
    exec (.not rx) s = .next ({ s with r := s.r.set rx (~~~s.r.get rx), pc := s.pc + 1 } : State).completed := by
  rw [← ofNat_not]
  rfl

/-- Settles O24: with a register after `rx` both halves are kept; for `rx = 3` the discarded half is the witness. -/
theorem mltSplitsExactProduct : Obligations.MltSplitsExactProduct := by
  intro s rx ry
  refine ⟨_, exec_mlt rx ry s, rfl, fun rz hrz => ⟨?pair, fun g hx hz => ?others⟩,
    fun hnone => ⟨⟨lowHalf (product32 (s.r.get rx) (s.r.get ry)), ?high⟩, fun g hx => ?rest⟩⟩
  case pair => exact (congrArg BitVec.toInt (setPair_halves_append _ s hrz)).trans (product32_toInt ..)
  case others => exact setPair_get_other _ _ s hx fun h => hz (Option.some.inj (h.symm.trans hrz))
  case high => exact (congrArg BitVec.toInt (setPair_high_append rx _ _ s)).trans (product32_toInt ..)
  case rest => exact setPair_get_other _ _ s hx fun h => Option.some_ne_none g (h.symm.trans hnone)

/-- Settles O25: the witnesses are the model's own quotient and remainder, which the division rounding toward zero
gives. -/
theorem dvdQuotientAndRemainder : Obligations.DvdQuotientAndRemainder := fun s rx ry hd =>
  ⟨_, quotient (s.r.get rx) (s.r.get ry), remainder (s.r.get rx) (s.r.get ry), exec_dvd_of_ne_zero rx hd, rfl,
    quotient_mul_add_remainder .., abs_remainder_lt _ hd, remainder_eq_zero_or_sign ..,
    setPair_get_first .., fun _ hrz => setPair_get_second _ _ s hrz,
    fun _ hx hz => setPair_get_other _ _ s hx hz⟩

/-- Settles O26. -/
theorem dvdByZeroSetsFlag : Obligations.DvdByZeroSetsFlag := fun _ rx _ hd => exec_dvd_of_eq_zero rx hd

/-- Settles O27: the comparison is of whole words, and words are equal when their bits are. -/
theorem trrComparesWords : Obligations.TrrComparesWords := fun s rx ry =>
  ⟨_, exec_trr rx ry s, rfl, (ccOfCompare_eq_equal_iff _ _).trans BitVec.eq_of_getLsbD_eq_iff,
    (ccOfCompare_cases _ _).imp And.right And.right⟩

/-- Settles O28: the three write one register, with the word operation of their name. -/
theorem logicWorksBitByBit : Obligations.LogicWorksBitByBit := by
  intro s rx ry
  refine ⟨⟨_, _, exec_and rx ry s, s.r.set_isUpdate rx _, rfl, fun k _ => BitVec.getLsbD_and⟩,
    ⟨_, _, exec_orr rx ry s, s.r.set_isUpdate rx _, rfl, fun k _ => BitVec.getLsbD_or⟩,
    ⟨_, _, exec_not rx s, s.r.set_isUpdate rx _, rfl, fun k hk => ?_⟩⟩
  rw [BitVec.getLsbD_not, decide_eq_true hk, Bool.true_and]

end Sys2Proof.Machine
end

section
/-! Shift and rotate of 45_shift_rotate.md, settled. Both instructions write one register; what is left of each is where
the bits of the shifted or rotated word come from. -/

namespace Sys2Proof.Machine

/-! ## The bits of a shifted word (R241) -/

/-- To the right, the places above the top are filled with the sign (R241, D11). -/
theorem shiftWord_right_getLsbD (n : Nat) (w : Word) {k : Nat} (hk : k < 16) :
    (shiftWord .right n w).getLsbD k = if k + n < 16 then w.getLsbD (k + n) else w.getLsbD 15 := by
  rw [shiftWord_right, BitVec.getLsbD_sshiftRight, BitVec.msb_eq_getLsbD_last, decide_eq_false (not_le.mpr hk),
    Nat.add_comm n k]
  rfl

/-- To the left, the places below the count are zero (R241). -/
theorem shiftWord_left_getLsbD (n : Nat) (w : Word) {k : Nat} (hk : k < 16) :
    (shiftWord .left n w).getLsbD k = (decide (n ≤ k) && w.getLsbD (k - n)) := by
  rw [shiftWord_left, BitVec.getLsbD_shiftLeft, decide_eq_true hk, Bool.true_and, ← decide_not]
  simp only [not_lt]

/-! ## The bits of a rotated word (R242) -/

/-- One rotation to the left moves every bit up by one, the top bit to the bottom. -/
theorem rotateOnce_left_getLsbD (w : Word) {k : Nat} (hk : k < 16) :
    (rotateOnce .left w).getLsbD ((k + 1) % 16) = w.getLsbD k := by
  rw [rotateOnce_left, BitVec.getLsbD_rotateLeft]
  obtain rfl | hlt : k = 15 ∨ k + 1 < 16 := by omega
  · rfl
  · rw [Nat.mod_eq_of_lt hlt]
    simp [hlt]

/-- One rotation to the right moves every bit down by one, the bottom bit to the top. -/
theorem rotateOnce_right_getLsbD (w : Word) {k : Nat} (hk : k < 16) :
    (rotateOnce .right w).getLsbD k = w.getLsbD ((k + 1) % 16) := by
  rw [rotateOnce_right, BitVec.getLsbD_rotateRight]
  obtain rfl | hlt : k = 15 ∨ k + 1 < 16 := by omega
  · rfl
  · rw [Nat.mod_eq_of_lt hlt]
    simp [show k < 15 by omega, Nat.add_comm]

/-- The first of the `n + 1` rotations takes bit `k` to its neighbour, the other `n` take it on from there. -/
theorem rotateWord_left_getLsbD (n : Nat) (w : Word) {k : Nat} (hk : k < 16) :
    (rotateWord .left n w).getLsbD ((k + n) % 16) = w.getLsbD k := by
  induction n generalizing w k with
  | zero => rw [rotateWord, Nat.add_zero, Nat.mod_eq_of_lt hk]
  | succ n ih =>
    have hplace : (k + (n + 1)) % 16 = ((k + 1) % 16 + n) % 16 := by omega
    rw [rotateWord, hplace, ih _ (Nat.mod_lt _ (by decide)), rotateOnce_left_getLsbD w hk]

/-- The last `n` of the `n + 1` rotations bring bit `(k + n) mod 16` to `k`, the first one brought it its neighbour. -/
theorem rotateWord_right_getLsbD (n : Nat) (w : Word) {k : Nat} (hk : k < 16) :
    (rotateWord .right n w).getLsbD k = w.getLsbD ((k + n) % 16) := by
  induction n generalizing w with
  | zero => rw [rotateWord, Nat.add_zero, Nat.mod_eq_of_lt hk]
  | succ n ih =>
    have hplace : ((k + n) % 16 + 1) % 16 = (k + (n + 1)) % 16 := by omega
    rw [rotateWord, ih, rotateOnce_right_getLsbD w (Nat.mod_lt _ (by decide)), hplace]

/-! ## The instructions (R241, R242) -/

theorem exec_src (r : GReg) (dir : Direction) (n : Nat) (s : State) :
    exec (.src r dir n) s =
      .next ({ s with r := s.r.set r (shiftWord dir n (s.r.get r)), pc := s.pc + 1 } : State).completed := rfl

theorem exec_rrc (r : GReg) (dir : Direction) (n : Nat) (s : State) :
    exec (.rrc r dir n) s =
      .next ({ s with r := s.r.set r (rotateWord dir n (s.r.get r)), pc := s.pc + 1 } : State).completed := rfl

/-- Settles O29: the word written is the shifted one, and its bits are told one direction at a time. -/
theorem srcShiftsBits : Obligations.SrcShiftsBits := by
  intro s r dir n
  refine ⟨_, _, exec_src r dir n s, s.r.set_isUpdate r _, rfl, ?right, ?left⟩
  case right =>
    rintro rfl k hk
    exact shiftWord_right_getLsbD n _ hk
  case left =>
    rintro rfl k hk
    exact shiftWord_left_getLsbD n _ hk

/-- Settles O30: the word written is the rotated one; that the count acts modulo 16 comes from the induction on the
one-bit rotations. -/
theorem rrcRotatesBits : Obligations.RrcRotatesBits := by
  intro s r dir n
  refine ⟨_, _, exec_rrc r dir n s, s.r.set_isUpdate r _, rfl, ?left, ?right⟩
  case left =>
    rintro rfl k hk
    exact rotateWord_left_getLsbD n _ hk
  case right =>
    rintro rfl k hk
    exact rotateWord_right_getLsbD n _ hk

end Sys2Proof.Machine
end

section
/-! Trap, input, output and illegal opcodes of 46_trap_io.md, settled. TRAP and an illegal opcode are told as the writes
they make in words 2 and 4; of OUT what is left is which events each device id selects. -/

namespace Sys2Proof.Machine

/-! ## Illegal opcodes (R254) -/

/-- A word in IR whose opcode is not in the table dispatches fault 2. -/
theorem decodeExecute_of_illegal {s : State} (h : s.ir.toNat / 1024 ∉ tableOpcodes) :
    decodeExecute s = .next (s.faulted .illegalOpcode) := by
  obtain ⟨-, hreject⟩ := exactlyTheTableOpcodesDecode s.readings.lrBit s.ir
  rw [decodeExecute, hreject h]
  exact raiseFault_eq _ s

/-- After a fetch that succeeds the step runs the word in IR (R132, R133). -/
theorem step_eq_decodeExecute {s u : State} {w : Word} (hf : fetch s = .ok w u) : step s = decodeExecute u := by
  rw [step, stepEngine, hf, Access.andThen_ok]

/-- Settles O8: injected or fetched, the word stands in IR when it is decoded, and the dispatch is the same. -/
theorem illegalOpcodeFaults : Obligations.IllegalOpcodeFaults := by
  intro s u w answer hw hanswer
  have hir : u.ir = w ∧ answer = decodeExecute u := by
    obtain ⟨rfl, rfl⟩ | ⟨hf, rfl⟩ := hanswer
    · exact ⟨rfl, rfl⟩
    · exact ⟨congrArg State.ir (fetch_ok hf), step_eq_decodeExecute hf⟩
  obtain ⟨rfl, rfl⟩ := hir
  exact ⟨_, decodeExecute_of_illegal hw, rfl, faulted_word_same _ u, fun _ ha => faulted_word_other _ u ha⟩

/-! ## TRAP (R251) -/

/-- A valid code vectors: the write of word 2 is not seen by the read of word 0. -/
theorem exec_trap_of_le {s : State} (hs : s.Coherent) {code : Nat} (h : code ≤ 8) :
    exec (.trap code) s =
      .next ({ (s.afterWrite 2 (s.pc + 1)).afterRead 0 with
        pc := BitVec.ofNat 16 ((s.word 0).toNat + code) } : State).completed := by
  have hsaved : ({ s.afterWrite 2 (s.pc + 1) with pc := 0 } : State).Coherent :=
    (hs.afterWrite _ (lt_cap_of_lt (by decide))).congr rfl rfl rfl
  have hbase : (s.afterWrite 2 (s.pc + 1)).word 0 = s.word 0 := afterWrite_word_other s _ (by decide)
  have hvalid : ¬ Config.params.trapCodeMax < code := Nat.not_lt.mpr h
  show execTrap code s = _
  rw [execTrap, saveTrapReturn_eq, Access.andThen_ok, if_neg hvalid, vectorTrap_eq hsaved, ← hbase]
  rfl

/-- An invalid code dispatches fault 1 in the state after the save, whose PC is 0 (D21). -/
theorem exec_trap_of_gt {code : Nat} (h : 8 < code) (s : State) :
    exec (.trap code) s =
      .next (({ s.afterWrite 2 (s.pc + 1) with pc := 0 } : State).faulted .invalidTrapCode) := by
  have hinvalid : Config.params.trapCodeMax < code := h
  show execTrap code s = _
  rw [execTrap, saveTrapReturn_eq, Access.andThen_ok, if_pos hinvalid, raiseFault_eq]

/-- Settles O31: word 2 is the only word written, and word 0 is read after that write. -/
theorem trapVectorsThroughWordZero : Obligations.TrapVectorsThroughWordZero := fun s _ hs hcode =>
  ⟨_, exec_trap_of_le hs hcode, rfl, afterWrite_word_other s _ (by decide), afterWrite_word_same s 2 _,
    fun _ ha => afterWrite_word_other s _ ha⟩

/-- Settles O32: the dispatch writes word 4 over a store in which word 2 is saved already. -/
theorem invalidTrapCodeFaults : Obligations.InvalidTrapCodeFaults := by
  intro s code hcode
  refine ⟨_, exec_trap_of_gt hcode s, rfl, ?saved, faulted_word_same .., fun a h2 h4 => ?others⟩
  case saved => exact (faulted_word_other _ _ (by decide)).trans (afterWrite_word_same s 2 _)
  case others => exact (faulted_word_other _ _ h4).trans (afterWrite_word_other s _ h2)

/-! ## IN (R252) -/

/-- Settles O33: the two cases of the queue. -/
theorem inputTakesFrontOrBlocks : Obligations.InputTakesFrontOrBlocks := fun s r =>
  ⟨fun _ _ hq => ⟨_, execInput_of_cons r hq, s.r.set_isUpdate r _, rfl⟩, fun hq => execInput_of_nil r hq⟩

/-! ## OUT (R253, R255, R256) -/

/-- The two device ids are distinct (R255): the distance between them is 1 to 31, modulo 32. -/
theorem devidChar_ne_devidNum : Config.devidChar ≠ Config.devidNum := by
  have hchar := Config.charSeed.isLt
  have hnum := Config.numSeed.isLt
  simp only [Config.devidChar, Config.devidNum]
  omega

theorem lowByte_toNat (w : Word) : (lowByte w).toNat = w.toNat % 256 := by
  rw [lowByte, BitVec.extractLsb'_toNat, Nat.shiftRight_zero]

theorem outEvents_devidChar (w : Word) : outEvents Config.devidChar w = [.outChar (lowByte w)] := if_pos rfl

theorem outEvents_devidNum (w : Word) : outEvents Config.devidNum w = [.outNum w.toInt] := by
  rw [outEvents, if_neg devidChar_ne_devidNum.symm, if_pos rfl, s16]

theorem outEvents_of_ne {dev : Nat} (hchar : dev ≠ Config.devidChar) (hnum : dev ≠ Config.devidNum) (w : Word) :
    outEvents dev w = [] := by
  rw [outEvents, if_neg hchar, if_neg hnum]

theorem exec_output (r : GReg) (dev : Nat) (s : State) :
    exec (.output r dev) s =
      .next ({ s with outs := s.outs ++ outEvents dev (s.r.get r), pc := s.pc + 1 } : State).completed := rfl

/-- Settles O34: OUT appends the events its device id selects, and there are three cases of the id. -/
theorem outputEmitsEvent : Obligations.OutputEmitsEvent := by
  refine ⟨devidChar_ne_devidNum, Config.charSeed.isLt, Nat.mod_lt _ (by decide), fun s r dev =>
    ⟨_, exec_output r dev s, rfl, ?char, ?num, fun hchar hnum => ?other⟩⟩
  case char =>
    rintro rfl
    exact ⟨lowByte (s.r.get r), lowByte_toNat _, congrArg (s.outs ++ ·) (outEvents_devidChar _)⟩
  case num =>
    rintro rfl
    exact congrArg (s.outs ++ ·) (outEvents_devidNum _)
  case other => exact (congrArg (s.outs ++ ·) (outEvents_of_ne hchar hnum _)).trans (List.append_nil _)

end Sys2Proof.Machine
end

section
/-! Faults, stalls and the return idioms of 60_exceptions.md, settled. That a stall repeats in the same state rests on two
facts: the instruction does the same in states that differ in nothing but the cache (`exec_stallsAlike`), and the fetch that
begins the next step puts out no line the resolver then needs (`Cache.lookup_of_refetch`). -/

namespace Sys2Proof.Machine

/-! ## The fault dispatch (R272, R273) -/

/-- Settles O36: the dispatch is the cached write of word 4 and the writes of PC and MFR. -/
theorem faultDispatchSavesAndVectors : Obligations.FaultDispatchSavesAndVectors := fun s kind =>
  ⟨s.faulted kind, raiseFault_eq kind s, rfl, faulted_word_same kind s, fun _ ha => faulted_word_other kind s ha⟩

/-- The checked store at an address up to 27 the resolver gave: fault 0 is dispatched, and of the resolver's effects only
those on the cache are left (R80, R273). -/
theorem storeChecked_protected_of_resolveEA {s u : State} {ix : Option XReg} {ind : Bool} {addr ea : Nat}
    (h : resolveEA ix ind addr s = .ok ea u) (hea : ea ≤ 27) (v : Word) :
    ∃ t, storeChecked ea v u = .next t ∧
      t = ({ s with
              mar := 4
              mbr := s.pc + 1
              mem := t.mem
              cache := u.cache.afterWrite 4 (s.pc + 1)
              pc := 1
              mfr := 1 } : State).completed ∧
      t.word 4 = s.pc + 1 ∧ ∀ a, a ≠ 4 → t.word a = s.word a := by
  have hu := resolveEA_ok h
  have hpc : u.pc = s.pc := by rw [hu]
  have hmem : u.mem = s.mem := by rw [hu]
  refine ⟨_, storeChecked_of_le v u hea, ?frame, hpc ▸ faulted_word_same _ u, fun a ha => ?others⟩
  case frame =>
    rw [hu]
    rfl
  case others => exact (faulted_word_other _ u ha).trans (word_eq_of_mem hmem a)

/-- Settles O17: STR and STX share the checked store, each at the address its resolver gives. -/
theorem protectedStoreFaults : Obligations.ProtectedStoreFaults := by
  rintro s s1 ind addr ea hea i (⟨r, ix, rfl, h⟩ | ⟨j, rfl, h⟩)
  · rw [execStr_of_resolveEA h]
    exact storeChecked_protected_of_resolveEA h hea _
  · rw [execStx_of_resolveEA h]
    exact storeChecked_protected_of_resolveEA h hea _

/-! ## Operand accesses out of range (R278, R279 case c) -/

section
variable {s : State} (hs : s.Coherent) {ix : Option XReg} {ind : Bool} {addr : Nat} (h : s.CanResolve ix ind addr)
include hs h

/-- The read of an operand out of range stalls whatever it is for. -/
theorem operand_andThen_of_ge (hea : s.cap ≤ s.ea ix ind addr) (k : Word → State → Result) :
    ((resolveEA ix ind addr s).andThen fun ea u => (memRead ea u).andThen k) =
      .next ({ s.afterResolve ix ind addr with mar := BitVec.ofNat 16 (s.ea ix ind addr) } : State).stalledAt := by
  have hread : (s.afterResolve ix ind addr).cap ≤ s.ea ix ind addr := (afterResolve_cap ix ind addr s).symm ▸ hea
  rw [resolveEA_andThen_of_canResolve hs h, memRead_of_ge (hs.afterResolve h) hread, Access.andThen_stalled]

/-- So does a checked store out of range, with the word in MBR. -/
theorem operand_store_of_ge (hea : s.cap ≤ s.ea ix ind addr) (v : State → Word) :
    ((resolveEA ix ind addr s).andThen fun ea u => storeChecked ea (v u) u) =
      .next ({ s.afterResolve ix ind addr with
                mar := BitVec.ofNat 16 (s.ea ix ind addr), mbr := v (s.afterResolve ix ind addr) } : State).stalledAt := by
  have hstore : (s.afterResolve ix ind addr).cap ≤ s.ea ix ind addr := (afterResolve_cap ix ind addr s).symm ▸ hea
  rw [resolveEA_andThen_of_canResolve hs h, storeChecked_of_ge _ hstore]

end

/-- Settles O37: the four loads read their operand after the resolver, and the two stores are checked stores of a register
the resolver keeps. -/
theorem outOfRangeOperandStalls : Obligations.OutOfRangeOperandStalls := by
  intro s r ix m ind addr i hs hm
  refine ⟨fun h hea => ⟨fun hi => ?loads, ?str⟩, fun h hea => ?moved⟩
  case loads =>
    simp only [List.mem_cons, List.not_mem_nil, or_false] at hi
    rcases hi with rfl | rfl | rfl
    all_goals exact operand_andThen_of_ge hs h hea _
  case str =>
    have hstr := operand_store_of_ge hs h hea fun u => u.r.get r
    rwa [afterResolve_r] at hstr
  case moved =>
    obtain rfl : m = movedIndex ix s := hm
    refine ⟨operand_andThen_of_ge hs h hea _, ?_⟩
    rintro j rfl
    have hstx := operand_store_of_ge hs h hea fun u => u.x.get j
    rwa [afterResolve_x] at hstx

/-! ## The return idioms (R284, R285) -/

/-- An indirect jump through a word in range goes to the address it holds (R142, R204). -/
theorem exec_jma_indirect {s : State} (hs : s.Coherent) {a : Nat} (ha : a < s.cap) :
    ∃ v, exec (.jma none true a) s = .next v ∧ v.pc = s.word a := by
  refine ⟨_, exec_jma_of_canResolve hs fun _ => ha, ?_⟩
  show BitVec.ofNat 16 (s.word a).toNat = s.word a
  rw [BitVec.ofNat_toNat, BitVec.setWidth_eq]

/-- Settles O40: TRAP and the fault dispatch leave PC + 1 in their return slots, through which the jump goes. -/
theorem indirectJumpReturns : Obligations.IndirectJumpReturns := by
  constructor
  · intro s t u code hs hcode ht hu hslot
    obtain ⟨t', ht', -, -, hsaved, -⟩ := trapVectorsThroughWordZero s code hs hcode
    obtain rfl := Host.Outcome.next.inj (ht'.symm.trans ht)
    obtain ⟨v, hv, hpc⟩ := exec_jma_indirect hu (a := 2) (lt_cap_of_lt (by decide))
    exact ⟨v, hv, hpc.trans (hslot.trans hsaved)⟩
  · intro s t u kind ht hu hslot
    obtain rfl := Host.Outcome.next.inj ((raiseFault_eq kind s).symm.trans ht)
    obtain ⟨v, hv, hpc⟩ := exec_jma_indirect hu (a := 4) (lt_cap_of_lt (by decide))
    exact ⟨v, hv, hpc.trans (hslot.trans (faulted_word_same kind s))⟩

/-! ## The cache of a repeated step (R69, R70) -/

theorem Cache.afterRead_of_hit {c : Cache} {a : Nat} {v : Word} (h : c.lookup a = some v) (w : Word) :
    c.afterRead a w = c := by
  rw [Cache.afterRead, h]

theorem Cache.afterRead_of_miss {c : Cache} {a : Nat} (h : c.lookup a = none) (w : Word) :
    c.afterRead a w = c.insert a w := by
  rw [Cache.afterRead, h]

/-- With more than one line, an insertion does not put out the newest line. -/
theorem Cache.insert_cons (l : CacheLine) (c : Cache) (p : Nat) (w : Word) :
    ∃ c', Cache.insert (l :: c) p w = ⟨p, w⟩ :: l :: c' := by
  unfold Cache.insert
  split
  · next hfull =>
    cases c with
    | nil => exact absurd hfull (Nat.not_le.mpr (by decide : 1 < Config.params.cacheLines))
    | cons k c => exact ⟨(k :: c).dropLast, rfl⟩
  · exact ⟨c, rfl⟩

/-- After reads of `p`, of `a` and of `p` again there is still a line for `a`: if it put the line for `p` out, it is the
newest. -/
theorem Cache.lookup_of_refetch (c : Cache) (p a : Nat) (w v w' : Word) :
    ∃ x, (((c.afterRead p w).afterRead a v).afterRead p w').lookup a = some x := by
  obtain ⟨y, hy⟩ := c.lookup_afterRead p w
  cases hp : ((c.afterRead p w).afterRead a v).lookup p with
  | some z =>
    rw [Cache.afterRead_of_hit hp]
    exact Cache.lookup_afterRead ..
  | none =>
    rw [Cache.afterRead_of_miss hp]
    cases ha : (c.afterRead p w).lookup a with
    | some z =>
      rw [Cache.afterRead_of_hit ha, hy] at hp
      cases hp
    | none =>
      rw [Cache.afterRead_of_miss ha]
      obtain ⟨c', hc'⟩ := Cache.insert_cons ⟨a, v⟩ _ p w'
      by_cases hpa : p = a
      · exact ⟨w', (congrArg (Cache.lookup · a) hc').trans (if_pos hpa)⟩
      · exact ⟨v, (congrArg (Cache.lookup · a) hc').trans ((if_neg hpa).trans (if_pos rfl))⟩

/-! ## What a stall does not depend on (R74) -/

/-- Two coherent states that differ in nothing but the cache and how the last step ended. -/
structure State.Twin (s t : State) : Prop extends s.Alike t where
  mar : t.mar = s.mar
  mbr : t.mbr = s.mbr

namespace State.Twin
variable {s t : State}

theorem r_eq (h : s.Twin t) : t.r = s.r := by
  rw [h.same]

theorem x_eq (h : s.Twin t) : t.x = s.x := by
  rw [h.same]

theorem canResolve (h : s.Twin t) {ix : Option XReg} {ind : Bool} {addr : Nat} (hr : s.CanResolve ix ind addr) :
    t.CanResolve ix ind addr := by
  rw [State.CanResolve, h.cap_eq, h.baseAddress_eq]
  exact hr

theorem ea_eq (h : s.Twin t) (ix : Option XReg) (ind : Bool) (addr : Nat) : t.ea ix ind addr = s.ea ix ind addr := by
  simp only [State.ea, h.baseAddress_eq, h.word_eq]

theorem afterResolve (h : s.Twin t) {ix : Option XReg} {ind : Bool} {addr : Nat} (hr : s.CanResolve ix ind addr) :
    (s.afterResolve ix ind addr).Twin (t.afterResolve ix ind addr) := by
  cases ind with
  | false => exact h
  | true =>
    simp only [State.afterResolve, if_true, h.baseAddress_eq]
    exact ⟨h.toAlike.afterRead (hr rfl), rfl, h.word_eq _⟩

end State.Twin

/-- If the first result is a stall, so is the second: the resolver has made the same access in both states, and MAR and MBR
show the same. -/
def StallsAlike (s s' : State) (r r' : Result) : Prop :=
  ∀ t, r = .next t → t.outcome = .stall → ∃ ix ind addr mar mbr, s.CanResolve ix ind addr ∧
    t = ({ s.afterResolve ix ind addr with mar := mar, mbr := mbr } : State).stalledAt ∧
    r' = .next ({ s'.afterResolve ix ind addr with mar := mar, mbr := mbr } : State).stalledAt

/-- A result that is no stall. -/
theorem stallsAlike_of_outcome_ne {s s' t : State} {r r' : Result} (h : r = .next t) (ho : t.outcome ≠ .stall) :
    StallsAlike s s' r r' := by
  intro u hu hstall
  cases h.symm.trans hu
  exact absurd hstall ho

theorem stallsAlike_of_completed {s s' u : State} {r r' : Result} (h : r = .next u.completed) : StallsAlike s s' r r' :=
  stallsAlike_of_outcome_ne h StepOutcome.noConfusion

theorem stallsAlike_stalledAt {s s' : State} {ix : Option XReg} {ind : Bool} {addr : Nat} (hr : s.CanResolve ix ind addr)
    {r r' : Result} {mar mbr : Word}
    (h : r = .next ({ s.afterResolve ix ind addr with mar := mar, mbr := mbr } : State).stalledAt)
    (h' : r' = .next ({ s'.afterResolve ix ind addr with mar := mar, mbr := mbr } : State).stalledAt) :
    StallsAlike s s' r r' := by
  intro t ht _
  cases h.symm.trans ht
  exact ⟨ix, ind, addr, mar, mbr, hr, rfl, h'⟩

theorem stallsAlike_execInput (s s' : State) (r : GReg) : StallsAlike s s' (execInput r s) (execInput r s') := by
  cases hq : s.inq with
  | nil => exact stallsAlike_of_outcome_ne (execInput_of_nil r hq) StepOutcome.noConfusion
  | cons w rest => exact stallsAlike_of_completed (execInput_of_cons r hq)

section
variable {s s' : State} (h : s.Twin s') {ix : Option XReg} {ind : Bool} {addr : Nat}
include h

/-- A stall of the indirect fetch shows the pointer's address in both (R142). -/
theorem stallsAlike_resolveEA {k k' : Nat → State → Result}
    (hk : s.CanResolve ix ind addr → StallsAlike s s' (k (s.ea ix ind addr) (s.afterResolve ix ind addr))
      (k' (s.ea ix ind addr) (s'.afterResolve ix ind addr))) :
    StallsAlike s s' ((resolveEA ix ind addr s).andThen k) ((resolveEA ix ind addr s').andThen k') := by
  by_cases hr : s.CanResolve ix ind addr
  · rw [resolveEA_andThen_of_canResolve h.left hr, resolveEA_andThen_of_canResolve h.right (h.canResolve hr), h.ea_eq]
    exact hk hr
  · obtain ⟨rfl, hge⟩ := not_canResolve_iff.mp hr
    have hge' : s'.cap ≤ baseAddress ix addr s' := by rwa [h.cap_eq, h.baseAddress_eq]
    have hdirect : s.CanResolve ix false addr := fun e => absurd e Bool.false_ne_true
    refine stallsAlike_stalledAt hdirect (resolveEA_andThen_of_ge h.left hge k) ?_
    rw [resolveEA_andThen_of_ge h.right hge', h.baseAddress_eq, ← h.mbr]
    rfl

/-- A stall of the operand read shows its address in both (R279 case c). -/
theorem stallsAlike_memRead (hr : s.CanResolve ix ind addr) (a : Nat) {k k' : Word → State → Result}
    (hk : ∀ w u, ∃ v : State, k w u = .next v.completed) :
    StallsAlike s s' ((memRead a (s.afterResolve ix ind addr)).andThen k)
      ((memRead a (s'.afterResolve ix ind addr)).andThen k') := by
  have hafter := h.afterResolve hr
  by_cases ha : a < (s.afterResolve ix ind addr).cap
  · rw [memRead_of_lt hafter.left ha]
    obtain ⟨v, hv⟩ := hk _ _
    exact stallsAlike_of_completed hv
  · have hge : (s.afterResolve ix ind addr).cap ≤ a := Nat.le_of_not_lt ha
    rw [memRead_of_ge hafter.left hge, memRead_of_ge hafter.right (hafter.cap_eq ▸ hge)]
    refine stallsAlike_stalledAt hr rfl ?_
    rw [← hafter.mbr]
    rfl

/-- A stall of the checked store shows its address and its word in both (R279 case c). -/
theorem stallsAlike_storeChecked (hr : s.CanResolve ix ind addr) (ea : Nat) (v : Word) :
    StallsAlike s s' (storeChecked ea v (s.afterResolve ix ind addr)) (storeChecked ea v (s'.afterResolve ix ind addr)) := by
  have hafter := h.afterResolve hr
  by_cases hp : ea ≤ 27
  · exact stallsAlike_of_completed (storeChecked_of_le v _ hp)
  · have hlo : 27 < ea := Nat.lt_of_not_le hp
    by_cases hc : ea < (s.afterResolve ix ind addr).cap
    · exact stallsAlike_of_completed (storeChecked_of_lt v hlo hc)
    · have hge : (s.afterResolve ix ind addr).cap ≤ ea := Nat.le_of_not_lt hc
      exact stallsAlike_stalledAt hr (storeChecked_of_ge v hge) (storeChecked_of_ge v (hafter.cap_eq ▸ hge))

/-- STX with index field 0 stalls after the resolver, where MAR and MBR are the same in both (R170). -/
theorem stallsAlike_stall (hr : s.CanResolve ix ind addr) :
    StallsAlike s s' (stall (s.afterResolve ix ind addr)) (stall (s'.afterResolve ix ind addr)) := by
  have hafter := h.afterResolve hr
  refine stallsAlike_stalledAt (mar := (s.afterResolve ix ind addr).mar) (mbr := (s.afterResolve ix ind addr).mbr) hr
    (stall_eq _) ?_
  rw [stall_eq, ← hafter.mar, ← hafter.mbr]

/-- Only an access out of range stalls, and STX with index field 0; then the instruction does the same in both states. -/
theorem exec_stallsAlike (i : Instr) : StallsAlike s s' (exec i s) (exec i s') := by
  cases i with
  | hlt => exact stallsAlike_of_outcome_ne (exec_hlt s) StepOutcome.noConfusion
  | air | sir | rfs | mlt | trr | and | orr | not | src | rrc | output => exact stallsAlike_of_completed rfl
  | ldr | amr | smr =>
    exact stallsAlike_resolveEA h fun hr => stallsAlike_memRead h hr _ fun _ _ => ⟨_, rfl⟩
  | lda | jma | jsr | jz | jne | jcc | jge | sob =>
    exact stallsAlike_resolveEA h fun _ => stallsAlike_of_completed rfl
  | str r =>
    refine stallsAlike_resolveEA h fun hr => ?_
    rw [afterResolve_r, afterResolve_r, h.r_eq]
    exact stallsAlike_storeChecked h hr _ _
  | ldx ix ind addr =>
    change StallsAlike s s' (execLdx ix ind addr s) (execLdx ix ind addr s')
    rw [execLdx, execLdx, h.movedIndex_eq]
    exact stallsAlike_resolveEA h fun hr => stallsAlike_memRead h hr _ fun _ _ => ⟨_, rfl⟩
  | stx ix ind addr =>
    change StallsAlike s s' (execStx ix ind addr s) (execStx ix ind addr s')
    rw [execStx, execStx, h.movedIndex_eq]
    refine stallsAlike_resolveEA h fun hr => ?_
    cases ix with
    | none => exact stallsAlike_stall h hr
    | some j =>
      simp only [afterResolve_x, h.x_eq]
      exact stallsAlike_storeChecked h hr _ _
  | dvd rx ry =>
    obtain ⟨_, hs⟩ := execDvd_completes rx ry s
    exact stallsAlike_of_completed hs
  | trap code =>
    obtain ⟨_, hs⟩ := execTrap_completes code s
    exact stallsAlike_of_completed hs
  | input r => exact stallsAlike_execInput s s' r

end

/-! ## A stall repeats (R279, R331) -/

/-- With a line for the pointer in the cache, of the resolver's effects those on MAR and MBR are all. -/
theorem afterResolve_of_hit {s : State} {ix : Option XReg} {ind : Bool} {addr : Nat}
    (h : ind = true → ∃ v, s.cache.lookup (baseAddress ix addr s) = some v) (mar mbr : Word) :
    { s.afterResolve ix ind addr with mar := mar, mbr := mbr } = { s with mar := mar, mbr := mbr } := by
  cases ind with
  | false => rfl
  | true =>
    obtain ⟨v, hv⟩ := h rfl
    simp only [State.afterResolve, if_true, State.afterRead, Cache.afterRead_of_hit hv]

/-- A second fetch and the same resolver leave a stalled state as it is but for the fetch's own read of PC (R70, R331). -/
theorem stalledAt_refetched {s t : State} {ix : Option XReg} {ind : Bool} {addr : Nat} {mar mbr : Word}
    (ht : t = ({ s.fetched.afterResolve ix ind addr with mar := mar, mbr := mbr } : State).stalledAt) :
    ({ t.fetched.afterResolve ix ind addr with mar := mar, mbr := mbr } : State).stalledAt =
      { t with cache := t.cache.afterRead t.pc.toNat (t.word t.pc.toNat) } := by
  have hhit : ind = true → ∃ v, t.fetched.cache.lookup (baseAddress ix addr t.fetched) = some v := by
    rintro rfl
    rw [ht]
    exact Cache.lookup_of_refetch ..
  rw [afterResolve_of_hit hhit, ht]
  cases ind with
  | false => rfl
  | true => rfl

/-- After a stalled instruction the next fetch leaves a twin of what the last fetch left. -/
theorem twin_fetched_of_stall {s u : State} (hs : s.Coherent) (hp : s.pc.toNat < s.cap) (hu : s.fetched.Accessed u)
    (hc : u.stalledAt.Coherent) : s.fetched.Twin u.stalledAt.fetched where
  toAlike := alike_fetched_of_stall hs hp hu hc
  mar := by
    rw [hu]
    rfl
  mbr := by
    rw [hu]
    rfl

/-- Settles O39: a fetch out of range stalls again in the same state; otherwise the instruction runs again in a twin of the
state it stalled in, where its resolver finds its pointer in the cache. -/
theorem stallRepeats : Obligations.StallRepeats := by
  intro s t hs ht ho
  have hc : t.Coherent := ((step_keeps s).memSide ht).coherent hs
  refine ⟨hc, ?_⟩
  obtain ⟨hge, hfetch⟩ | ⟨hp, i, hi, he⟩ := step_stall_cases hs ht ho
  · have hpc : t.cap ≤ t.pc.toNat := by rw [hfetch]; exact hge
    rw [if_neg (Nat.not_lt.mpr hpc), step_of_ge hc hpc, hfetch]
    rfl
  · obtain ⟨u, hu, rfl⟩ := (exec_stepEnd he).accessed_of_stall ho
    have hpc : u.stalledAt.pc.toNat < u.stalledAt.cap := by rw [hu]; exact hp
    have hword : decode u.stalledAt.readings.lrBit (u.stalledAt.word u.stalledAt.pc.toNat) = .ok i := by rw [hu]; exact hi
    have htwin : s.fetched.Twin u.stalledAt.fetched := twin_fetched_of_stall hs hp hu hc
    obtain ⟨ix, ind, addr, mar, mbr, -, hstall, hagain⟩ := exec_stallsAlike htwin i _ he ho
    rw [if_pos hpc, ← stalledAt_refetched hstall]
    exact (step_of_lt hc hpc hword).trans hagain

end Sys2Proof.Machine
end

section
/-! Input and loading of 70_reset_and_hazards.md, settled. A waiting engine re-enters the run loop at the IN it waits at, so
what `supplyInput` does is the loop's first step and its test; an image is loaded store by store, and the store made last
for an address is the one that is seen. -/

namespace Sys2Proof.Machine

/-! ## Supplying input (R325, R39) -/

theorem fillQueue_of_awaiting {s : State} (words : List Int) (h : s.engine = .awaitingInput) :
    fillQueue words s =
      { s with inq := words.map (BitVec.ofInt 16), wait := .hasInput, engine := .ready } := by
  rw [fillQueue, if_pos h]
  rfl

theorem fillQueue_of_not_awaiting {s : State} (words : List Int) (h : s.engine ≠ .awaitingInput) :
    fillQueue words s = { s with inq := words.map (BitVec.ofInt 16), wait := .hasInput } := by
  rw [fillQueue, if_neg h]
  rfl

theorem supplyInput_of_awaiting {s : State} (fuel : Nat) (words : List Int) (h : s.engine = .awaitingInput) :
    supplyInput fuel words s = run fuel (fillQueue words s) := if_pos h

theorem supplyInput_of_not_awaiting {s : State} (fuel : Nat) (words : List Int) (h : s.engine ≠ .awaitingInput) :
    supplyInput fuel words s = .next (.returned (fillQueue words s)) := if_neg h

/-- The word of an IN does not hold the halt opcode, which the run loop tests for (R136). -/
theorem opcode_ne_zero_of_input {lr : Config.LRBit} {w : Word} {r : GReg} (h : decode lr w = .ok (.input r)) :
    w.toNat / 1024 ≠ 0 := by
  obtain ⟨hop, -⟩ := decode_ok h
  rw [← opField_toNat, ← hop]
  exact Nat.succ_ne_zero 48

section
variable {s : State} {r : GReg} (hs : s.Coherent) (hp : s.pc.toNat < s.cap)
  (hi : decode s.readings.lrBit (s.word s.pc.toNat) = .ok (.input r))
include hs hp hi

/-- At an IN with a word queued the run loop goes on after the step that takes it (R252, R136). -/
theorem run_at_input_of_cons (fuel : Nat) {w : Word} {rest : List Word} (hq : s.inq = w :: rest) :
    run (fuel + 1) s = run fuel (advance { setR r w s.fetched with inq := rest }).completed := by
  have hstep := (step_of_lt hs hp hi).trans (execInput_of_cons r hq)
  refine run_of_not_stops fuel hstep fun hstop => ?_
  exact (runStops_iff.mp hstop).elim (opcode_ne_zero_of_input hi) EngineState.noConfusion

/-- At an IN with nothing queued the run loop returns after the step that blocks (R252, R136). -/
theorem run_at_input_of_nil (fuel : Nat) (hq : s.inq = []) :
    run (fuel + 1) s = .next (.returned
      { s.fetched with engine := .awaitingInput, wait := .blockedWaiting, outcome := .await }) :=
  run_of_stops fuel ((step_of_lt hs hp hi).trans (execInput_of_nil r hq)) (runStops_iff.mpr (.inr rfl))

end

/-- Settles O49: the new queue leaves the IN at PC as it is, so the first step of the run loop takes the queue's front or
blocks again. -/
theorem supplyInputResumesBlockedInput : Obligations.SupplyInputResumesBlockedInput := by
  refine fun s fuel words => ⟨fun he => ?_, fun r he hs hp hi => ?_⟩
  · rw [supplyInput_of_not_awaiting fuel words he, fillQueue_of_not_awaiting words he]
  · have hc : (fillQueue words s).Coherent := hs.congr rfl rfl rfl
    rw [supplyInput_of_awaiting (fuel + 1) words he]
    refine ⟨?taken, ?blocked⟩
    case taken =>
      rintro v rest rfl
      refine ⟨_, run_at_input_of_cons hc hp hi fuel rfl, s.r.set_isUpdate r _, ?_⟩
      rw [fillQueue_of_awaiting _ he]
      rfl
    case blocked =>
      rintro rfl
      exact run_at_input_of_nil hc hp hi fuel rfl

/-! ## Loading an image (R315, R327) -/

theorem rawStores_cons (p : Nat × Word) (image : List (Nat × Word)) (s : State) :
    rawStores (p :: image) s = rawStores image (rawStore p.1 p.2 s).1 := rfl

theorem rawStores_append (front back : List (Nat × Word)) (s : State) :
    rawStores (front ++ back) s = rawStores back (rawStores front s) := List.foldl_append

theorem rawStores_cap (image : List (Nat × Word)) (s : State) : (rawStores image s).cap = s.cap := by
  obtain ⟨m, hm⟩ := rawStores_frame image s
  exact cap_eq_of_expanded (by rw [hm])

/-- A raw store in range is read back (R87). -/
theorem rawStore_word_same {s : State} {a : Nat} (v : Word) (ha : a < s.cap) : (rawStore a v s).1.word a = v := by
  rw [rawStore_of_lt v ha]
  exact Memory.readWord_writeWord_same ..

/-- A raw store, in range or not, leaves every other word alone (R87). -/
theorem rawStore_word_other (s : State) {a b : Nat} (v : Word) (h : b ≠ a) : (rawStore a v s).1.word b = s.word b := by
  by_cases ha : a < s.cap
  · rw [rawStore_of_lt v ha]
    exact Memory.readWord_writeWord_other s.mem v h
  · rw [rawStore_of_ge v (Nat.le_of_not_lt ha)]

/-- Raw stores leave alone every word whose address they do not list. -/
theorem rawStores_word_of_not_listed {image : List (Nat × Word)} {a : Nat} (h : ∀ p ∈ image, p.1 ≠ a) (s : State) :
    (rawStores image s).word a = s.word a := by
  induction image generalizing s with
  | nil => rfl
  | cons p image ih =>
    obtain ⟨hp, himage⟩ := List.forall_mem_cons.mp h
    calc (rawStores (p :: image) s).word a
        = (rawStore p.1 p.2 s).1.word a := ih himage _
      _ = s.word a := rawStore_word_other s p.2 hp.symm

/-- Of several raw stores at one address the last is read back. -/
theorem rawStores_word_of_last {s : State} (front : List (Nat × Word)) {back : List (Nat × Word)} {a : Nat} (w : Word)
    (ha : a < s.cap) (h : ∀ p ∈ back, p.1 ≠ a) : (rawStores (front ++ (a, w) :: back) s).word a = w := by
  rw [rawStores_append, rawStores_cons, rawStores_word_of_not_listed h]
  exact rawStore_word_same w (rawStores_cap front s ▸ ha)

/-- Settles O51: the store reset empties the cache and puts the capacity at 2048, and the raw stores change the store
alone. -/
theorem loadingMakesCoherent : Obligations.LoadingMakesCoherent := by
  intro s keep image
  obtain ⟨m, hm⟩ := rawStores_frame image (storeReset keep s)
  have hframe : loadImage keep image s = { s with mem := m, expanded := false, cache := [] } := hm
  refine ⟨_, rfl, by rw [hframe], .of_cache_nil (by rw [hframe]), ?_⟩
  rintro front back a w rfl ha hback
  exact rawStores_word_of_last front w (ha.trans_eq (cap_of_not_expanded rfl).symm) hback

end Sys2Proof.Machine
end
